-- ==== Sys2Proof/Word.lean ====
section
/-! DEFINITION. The word types of the hash core (00_scope.md R10): bytes, the words of the two engines, the command
descriptor, and the state and block shapes built of them. Bit 0 of a word is its least significant bit. -/

namespace Sys2Proof

/-- A byte: 8 bits (R10). -/
abbrev Byte := BitVec 8

/-- A CubeHash word: 32 bits, unsigned (R21). -/
abbrev Word32 := BitVec 32

/-- A JH word: 64 bits, unsigned (R22). -/
abbrev Word64 := BitVec 64

/-- The command descriptor `CMD[127:0]` (R80). -/
abbrev Descriptor := BitVec 128

/-- The CubeHash Internal State `X[0..31]` (R21). -/
abbrev ChState := Vector Word32 32

/-- The JH Internal State `H[0..15]` (R22). -/
abbrev JhState := Vector Word64 16

/-- The eight words `W[0..7]` of a CubeHash block (R54). -/
abbrev ChBlockWords := Vector Word32 8

/-- The eight words `M[0..7]` of a JH block (R55). -/
abbrev JhBlockWords := Vector Word64 8

end Sys2Proof
end

