-- ==== Sys2Proof/Syntax.lean ====
section
/-! DEFINITION. The commands of the hash core, one constructor for each row of spec/opcode_table.json (30_encoding.md R85). -/

namespace Sys2Proof

/-- A command the host issues. The operands of `ABSORB` are the signed integers of R84. -/
inductive Instr where
  /-- `INIT`, sub008's `Initialize()` (R102). -/
  | init
  /-- `ABSORB`, sub008's `TransformBytes(data, offset, length)`; `dlen` is the size of the DATA array (R103, R80). -/
  | absorb (off len dlen : Int)
  /-- `FINAL`, sub008's `Finalize()` (R104). -/
  | final
  /-- `RESULT`, sub008's `GetResult()` (R105). -/
  | result
  /-- `TFINAL`, sub008's `TransformFinal()` (R106). -/
  | tfinal
deriving DecidableEq, Repr

end Sys2Proof
end

