-- ==== Sys2Proof/WellFormed.lean ====
section
/-! DEFINITION. Which commands can be encoded: each operand of `ABSORB` is a signed integer of 32 bits (30_encoding.md R84). -/

namespace Sys2Proof

/-- The integers a 32-bit two's-complement field holds, −2^31 to 2^31 − 1 (R84). -/
def inSigned32 (v : Int) : Bool := decide (-2147483648 ≤ v ∧ v ≤ 2147483647)

/-- A command is well formed when its operands fit their fields (R80, R84). -/
def Instr.wellFormed : Instr → Bool
  | .init => true
  | .absorb off len dlen => inSigned32 off && inSigned32 len && inSigned32 dlen
  | .final => true
  | .result => true
  | .tfinal => true

end Sys2Proof
end

