-- ==== Sys2Proof/Decode.lean ====
section
/-! DEFINITION. The decoder and the encoder of the 128-bit descriptor (30_encoding.md R80 to R88), and how a descriptor
stands in memory (R83). The decoder is total and rejects by name. -/

namespace Sys2Proof

/-! ## The fields of a descriptor (R80) -/

/-- `CMD[7:0]`, the opcode. -/
def Descriptor.op (d : Descriptor) : BitVec 8 := d.extractLsb' 0 8

/-- `CMD[127:8]`, the `ZERO` field of format N. -/
def Descriptor.zeroN (d : Descriptor) : BitVec 120 := d.extractLsb' 8 120

/-- `CMD[31:8]`, the `ZERO` field of format A. -/
def Descriptor.zeroA (d : Descriptor) : BitVec 24 := d.extractLsb' 8 24

/-- `CMD[63:32]`, sub008's `offset`. -/
def Descriptor.off (d : Descriptor) : Word32 := d.extractLsb' 32 32

/-- `CMD[95:64]`, sub008's `length`. -/
def Descriptor.len (d : Descriptor) : Word32 := d.extractLsb' 64 32

/-- `CMD[127:96]`, the number of bytes in the DATA array. -/
def Descriptor.dlen (d : Descriptor) : Word32 := d.extractLsb' 96 32

/-! ## The opcode map (R85) -/

/-- The opcode of a command (R85). -/
def Instr.opcode : Instr → BitVec 8
  | .init => 0x01
  | .absorb _ _ _ => 0x02
  | .final => 0x03
  | .result => 0x04
  | .tfinal => 0x05

/-- A row of the opcode map in match and mask form (R85). -/
structure OpcodeRow where
  mnemonic : String
  mask : Descriptor
  pattern : Descriptor
deriving DecidableEq, Repr

/-- The opcode map (R85): format N fixes all 128 bits, format A fixes `CMD[31:0]`. -/
def opcodeRows : List OpcodeRow :=
  [ ⟨"INIT", 0xFFFFFFFFFFFFFFFFFFFFFFFFFFFFFFFF, 0x1⟩,
    ⟨"ABSORB", 0x000000000000000000000000FFFFFFFF, 0x2⟩,
    ⟨"FINAL", 0xFFFFFFFFFFFFFFFFFFFFFFFFFFFFFFFF, 0x3⟩,
    ⟨"RESULT", 0xFFFFFFFFFFFFFFFFFFFFFFFFFFFFFFFF, 0x4⟩,
    ⟨"TFINAL", 0xFFFFFFFFFFFFFFFFFFFFFFFFFFFFFFFF, 0x5⟩ ]

/-- A descriptor matches a row when the bits the row fixes are the row's (R85). -/
def OpcodeRow.covers (r : OpcodeRow) (d : Descriptor) : Bool := d &&& r.mask == r.pattern

/-! ## The decoder (R85, R87) -/

/-- Why a descriptor is no command (R87). -/
inductive DecodeError where
  /-- `OP` is `0x00` or in `0x06`..`0xFF`. -/
  | unknownOpcode
  /-- `OP` is an opcode and a bit of the row's `ZERO` field is set. -/
  | reservedBitSet
deriving DecidableEq, Repr

/-- A format-N row: the command, if `CMD[127:8]` is zero (R80, R87). -/
def decodeN (i : Instr) (d : Descriptor) : Except DecodeError Instr :=
  if d.zeroN = 0 then .ok i else .error .reservedBitSet

/-- The format-A row: `ABSORB` with its operands read as signed integers (R84), if `CMD[31:8]` is zero (R80, R87). -/
def decodeA (d : Descriptor) : Except DecodeError Instr :=
  if d.zeroA = 0 then .ok (.absorb d.off.toInt d.len.toInt d.dlen.toInt) else .error .reservedBitSet

/-- "A decoder reads `CMD[7:0]`, selects the row, then checks the row's `ZERO` field" (R85). -/
def decode (d : Descriptor) : Except DecodeError Instr :=
  if d.op = 0x01 then decodeN .init d
  else if d.op = 0x02 then decodeA d
  else if d.op = 0x03 then decodeN .final d
  else if d.op = 0x04 then decodeN .result d
  else if d.op = 0x05 then decodeN .tfinal d
  else .error .unknownOpcode

/-! ## The encoder (R80, R85) -/

/-- A format-N descriptor: `ZERO` then `OP` (R80). -/
def formatN (op : BitVec 8) : Descriptor := (0 : BitVec 120) ++ op

/-- A format-A descriptor: `DLEN`, `LEN`, `OFF`, `ZERO`, `OP` from the most significant end (R80, R83). -/
def formatA (op : BitVec 8) (off len dlen : Int) : Descriptor :=
  BitVec.ofInt 32 dlen ++ BitVec.ofInt 32 len ++ BitVec.ofInt 32 off ++ (0 : BitVec 24) ++ op

/-- The descriptor of a command. -/
def encode : Instr → Descriptor
  | .init => formatN 0x01
  | .absorb off len dlen => formatA 0x02 off len dlen
  | .final => formatN 0x03
  | .result => formatN 0x04
  | .tfinal => formatN 0x05

/-! ## The descriptor in memory (R83) -/

/-- The four 32-bit words of a stored descriptor, in the order of R83: `OP`/`ZERO`, `OFF`, `LEN`, `DLEN`. -/
def Descriptor.words (d : Descriptor) : List Word32 :=
  [d.extractLsb' 0 32, d.extractLsb' 32 32, d.extractLsb' 64 32, d.extractLsb' 96 32]

/-- The 16 bytes of a stored descriptor, lowest address first: each word little-endian (R83). -/
def Descriptor.bytes (d : Descriptor) : List Byte :=
  d.words.flatMap fun w => [w.extractLsb' 0 8, w.extractLsb' 8 8, w.extractLsb' 16 8, w.extractLsb' 24 8]

/-- The 32-bit word of four bytes stored at ascending addresses (R83). -/
def storedWord (bs : List Byte) : Word32 := bs.getD 3 0 ++ bs.getD 2 0 ++ bs.getD 1 0 ++ bs.getD 0 0

/-- The descriptor of 16 stored bytes, lowest address first (R83); absent bytes count as zero. -/
def Descriptor.ofBytes (bs : List Byte) : Descriptor :=
  storedWord (bs.drop 12) ++ storedWord (bs.drop 8) ++ storedWord (bs.drop 4) ++ storedWord bs

/-! ## The table's numbering -/

/-- The descriptor of a table word: bit 0 of the table is `CMD[0]`, and every bit above `nbits` is 0. -/
def descriptorOfTableWord (nbits w : Nat) : Descriptor := BitVec.ofNat 128 (w % 2 ^ nbits)

/-- The command the decoder reads from a table word. -/
def decodeTableWord (nbits w : Nat) : Option Instr :=
  match decode (descriptorOfTableWord nbits w) with
  | .ok i => some i
  | .error _ => none

end Sys2Proof
end

