-- ==== Sys2Proof/Config.lean ====
section
/-! DEFINITION. What construction fixes (00_scope.md R7, 10_state.md R20), the instance `State.reset` describes, and the
free values: constants with no body, about which nothing can be proved. -/

namespace Sys2Proof

/-- The algorithm family an instance is built for, `ALG` (R7, R20). -/
inductive Alg where
  | cubehash
  | jh
deriving DecidableEq, Repr

/-- The digest size an instance is built for, `HASHSIZE` (R7, R20): one of 28, 32, 48 and 64 bytes. -/
inductive HashSize where
  | b28
  | b32
  | b48
  | b64
deriving DecidableEq, Repr

/-- The algorithm of the instance that `State.reset` describes. DESIGN CHOICE (log 1), unsafe: the spec leaves the
construction value to whoever builds the instance; every other instance is `State.powerOn alg hashSize`. -/
def Config.alg : Alg := .cubehash

/-- The digest size of the instance that `State.reset` describes. DESIGN CHOICE (log 1), unsafe, as `Config.alg`. -/
def Config.hashSize : HashSize := .b32

/-- FREE VALUE (log 4): `COUNT` after an `ABSORB` that takes it to 2^61 or beyond (93_implementation_defined.md U3: not
wrapped, saturated or refused; unstated), from `COUNT` before and `LEN`. Safe. -/
opaque Config.countBeyond : Word64 → Nat → Word64

/-- FREE VALUE (log 3): `X[0..31]` after the n-th assertion of the reset input (70_reset_and_hazards.md R230). Safe. -/
opaque Config.resetX : Nat → ChState

/-- FREE VALUE (log 3): `H[0..15]` after the n-th assertion of the reset input (R230). Safe. -/
opaque Config.resetH : Nat → JhState

/-- FREE VALUE (log 3): the bytes below `POS` after the n-th assertion of the reset input (R230), before they are cut to
fewer than BLOCKSIZE. Safe. -/
opaque Config.resetBuf : Nat → List Byte

/-- FREE VALUE (log 3): `COUNT` after the n-th assertion of the reset input (R230). Safe. -/
opaque Config.resetCount : Nat → Word64

end Sys2Proof
end

