-- ==== Sys2Proof/Machine/Params.lean ====
section
/-! DEFINITION. The constants that `ALG` and `HASHSIZE` fix (00_scope.md R7, R8). -/

namespace Sys2Proof

/-- `HASHSIZE` in bytes (R7). -/
def HashSize.bytes : HashSize → Nat
  | .b28 => 28
  | .b32 => 32
  | .b48 => 48
  | .b64 => 64

/-- `BLOCKSIZE` in bytes: 32 for CubeHash, 64 for JH (R8). -/
def Alg.blockSize : Alg → Nat
  | .cubehash => 32
  | .jh => 64

/-- The bound every message must stay below, 2^61 bytes (R9, 70_reset_and_hazards.md R240). -/
def messageBound : Nat := 2 ^ 61

end Sys2Proof
end

