-- ==== Sys2Proof/Machine/Operands.lean ====
section
/-! DEFINITION. The arithmetic, byte-order and range primitives the commands and the engines use (00_scope.md R12, R13;
20_memory.md R54, R55; 40_block_buffer.md R103). -/

namespace Sys2Proof.Machine

/-! ## Arithmetic (R12) -/

/-- `add32`: addition modulo 2^32. -/
def add32 (a b : Word32) : Word32 := a + b

/-- `rotl32`, for 0 < n < 32: rotation toward the more significant end. -/
def rotl32 (a : Word32) (n : Nat) : Word32 := (a <<< n) ||| (a >>> (32 - n))

/-- `not64`. -/
def not64 (a : Word64) : Word64 := a ^^^ 0xFFFFFFFFFFFFFFFF

/-- `shl64`: shift left modulo 2^64. -/
def shl64 (a : Word64) (n : Nat) : Word64 := a <<< n

/-- `shr64`: logical shift right. -/
def shr64 (a : Word64) (n : Nat) : Word64 := a >>> n

/-! ## Byte order (R13) -/

/-- `le32`: the word of four bytes, least significant first. -/
def le32 (b0 b1 b2 b3 : Byte) : Word32 := b3 ++ b2 ++ b1 ++ b0

/-- `unle32`: the four bytes of a word, least significant first. -/
def unle32 (w : Word32) : List Byte :=
  [w.extractLsb' 0 8, w.extractLsb' 8 8, w.extractLsb' 16 8, w.extractLsb' 24 8]

/-- `le64`: the word of eight bytes, least significant first. -/
def le64 (b0 b1 b2 b3 b4 b5 b6 b7 : Byte) : Word64 := b7 ++ b6 ++ b5 ++ b4 ++ b3 ++ b2 ++ b1 ++ b0

/-- `unle64`: the eight bytes of a word, least significant first. -/
def unle64 (w : Word64) : List Byte :=
  [w.extractLsb' 0 8, w.extractLsb' 8 8, w.extractLsb' 16 8, w.extractLsb' 24 8,
   w.extractLsb' 32 8, w.extractLsb' 40 8, w.extractLsb' 48 8, w.extractLsb' 56 8]

/-- `unbe64`: the eight bytes of a word, most significant first. -/
def unbe64 (w : Word64) : List Byte :=
  [w.extractLsb' 56 8, w.extractLsb' 48 8, w.extractLsb' 40 8, w.extractLsb' 32 8,
   w.extractLsb' 24 8, w.extractLsb' 16 8, w.extractLsb' 8 8, w.extractLsb' 0 8]

/-! ## Block load (R54, R55)

A load reads a full block: every index below is within it, and no rule reads beyond (R26). -/

/-- `W[i] = le32(BUF[4i..4i+3])` of a 32-byte block (R54). -/
def chLoad (block : List Byte) : ChBlockWords :=
  Vector.ofFn fun i : Fin 8 =>
    le32 (block.getD (4 * i) 0) (block.getD (4 * i + 1) 0) (block.getD (4 * i + 2) 0) (block.getD (4 * i + 3) 0)

/-- `M[i] = le64(BUF[8i..8i+7])` of a 64-byte block (R55). -/
def jhLoad (block : List Byte) : JhBlockWords :=
  Vector.ofFn fun i : Fin 8 =>
    le64 (block.getD (8 * i) 0) (block.getD (8 * i + 1) 0) (block.getD (8 * i + 2) 0) (block.getD (8 * i + 3) 0)
      (block.getD (8 * i + 4) 0) (block.getD (8 * i + 5) 0) (block.getD (8 * i + 6) 0) (block.getD (8 * i + 7) 0)

/-! ## The range check of `ABSORB` (R103, R201) -/

/-- The operands are in range: neither is negative and `off + len`, over the integers, does not exceed `dlen`. -/
def rangeOk (off len dlen : Int) : Bool := decide (0 ≤ off ∧ 0 ≤ len ∧ off + len ≤ dlen)

end Sys2Proof.Machine
end

