-- ==== Sys2Proof/Machine/CubeHash.lean ====
section
/-! DEFINITION. The CubeHash engine (41_cubehash.md): the round of ten steps (R131) and its gather form (R132), the block
transform (R133), the blank transform (R134), the definition of the IV (R135), and the digest (R138). The conflicts C1, C2
and C6 of 90_conflicts.md are followed. -/

namespace Sys2Proof.Machine

/-! ## The two halves of the state (R21) -/

/-- Word i of the low half, `X[i]` for i < 16. -/
def chLo (x : ChState) (i : Fin 16) : Word32 := x[i.val]

/-- Word i of the high half, `X[16+i]` for i < 16. -/
def chHi (x : ChState) (i : Fin 16) : Word32 := x[16 + i.val]

/-- The state with the given halves. -/
def chJoin (lo hi : Fin 16 → Word32) : ChState :=
  Vector.ofFn fun i : Fin 32 => if h : i.val < 16 then lo ⟨i, h⟩ else hi ⟨i - 16, by omega⟩

/-- Word i of the state; the rules form no index above 31 (R14). -/
def chWord (x : ChState) (i : Nat) : Word32 := x.toList.getD i 0

/-! ## The round (R131) -/

/-- Steps 1 and 6: "add low half into high half". -/
def chAddLowIntoHigh (x : ChState) : ChState := chJoin (chLo x) fun i => add32 (chHi x i) (chLo x i)

/-- Steps 2 and 7: "rotate low-half words left by n". -/
def chRotateLow (n : Nat) (x : ChState) : ChState := chJoin (fun i => rotl32 (chLo x i) n) (chHi x)

/-- Steps 3 and 8: the low half permuted by "index xor n". -/
def chSwapLow (n : Fin 16) (x : ChState) : ChState := chJoin (fun i => chLo x (i ^^^ n)) (chHi x)

/-- Steps 4 and 9: "xor high half into low half". -/
def chXorHighIntoLow (x : ChState) : ChState := chJoin (fun i => chLo x i ^^^ chHi x i) (chHi x)

/-- Steps 5 and 10: the high half permuted by "index xor n". -/
def chSwapHigh (n : Fin 16) (x : ChState) : ChState := chJoin (chLo x) fun i => chHi x (i ^^^ n)

/-- `CH_ROUND`, steps 1 to 5. -/
def chFirstHalfRound (x : ChState) : ChState :=
  chSwapHigh 2 (chXorHighIntoLow (chSwapLow 8 (chRotateLow 7 (chAddLowIntoHigh x))))

/-- `CH_ROUND`, steps 6 to 10. -/
def chSecondHalfRound (x : ChState) : ChState :=
  chSwapHigh 1 (chXorHighIntoLow (chSwapLow 4 (chRotateLow 11 (chAddLowIntoHigh x))))

/-- `CH_ROUND`: one round, the ten steps in order (R131). -/
def chRound (x : ChState) : ChState := chSecondHalfRound (chFirstHalfRound x)

/-- The round in gather form (R132), each word of the result from words of the old state. -/
def chRoundGather (x : ChState) : ChState :=
  let h1 : Fin 16 → Word32 := fun i => add32 (chHi x i) (chLo x i)
  let l1 : Fin 16 → Word32 := fun i => rotl32 (chLo x (i ^^^ 8)) 7 ^^^ h1 i
  let h2 : Fin 16 → Word32 := fun i => h1 (i ^^^ 2)
  let h3 : Fin 16 → Word32 := fun i => add32 (h2 i) (l1 i)
  let l2 : Fin 16 → Word32 := fun i => rotl32 (l1 (i ^^^ 4)) 11 ^^^ h3 i
  let h4 : Fin 16 → Word32 := fun i => h3 (i ^^^ 1)
  chJoin l2 h4

/-! ## The block transform (R130, R133, R134) -/

/-- `CH_XORIN`: the eight message words into state words 0 to 7 (R130). -/
def chXorin (w : ChBlockWords) (x : ChState) : ChState :=
  Vector.ofFn fun i : Fin 32 => if h : i.val < 8 then x[i.val] ^^^ w[i.val] else x[i.val]

/-- `CH_BLOCK`: the message words, then 16 rounds (R133). -/
def chBlock (w : ChBlockWords) (x : ChState) : ChState := chRound^[16] (chXorin w x)

/-- `CH_BLANK`: 16 rounds and nothing else (R134). -/
def chBlank (x : ChState) : ChState := chRound^[16] x

/-! ## The IV (R135) -/

/-- The seed: output size in bytes, block size in bytes, round count, the other words zero (R135). -/
def chSeed (h : HashSize) : ChState :=
  Vector.ofFn fun i : Fin 32 =>
    if i.val = 0 then BitVec.ofNat 32 h.bytes else if i.val = 1 then 32 else if i.val = 2 then 16 else 0

/-- `CH_IVGEN`: ten blank transforms of the seed (R135), the definition of `CH_IV`. -/
def chIvGen (h : HashSize) : ChState := chBlank^[10] (chSeed h)

/-! ## Closing steps and digest (R137, R138) -/

/-- "`X[31] <- X[31] xor 1`" (R137). -/
def chFlipLast (x : ChState) : ChState := x.set 31 (x[31] ^^^ 1)

/-- What `CH_FINAL` does once the padded block is absorbed: the XOR, then ten blank transforms (R137). -/
def chClose (x : ChState) : ChState := chBlank^[10] (chFlipLast x)

/-- `CH_RESULT`: `DIGEST[j] = (X[j div 4] >> (8 (j mod 4))) and 0xFF` for j below HASHSIZE (R138). -/
def chResult (h : HashSize) (x : ChState) : List Byte :=
  (List.range h.bytes).map fun j => (chWord x (j / 4) >>> (8 * (j % 4))).setWidth 8

/-- The whole state as 128 bytes, word 0 first, each word little-endian (20_memory.md R56). -/
def chSerial (x : ChState) : List Byte := x.toList.flatMap unle32

/-- The CubeHash pad string for fill position p: `0x80` and 31 − p zero bytes (R137, R57). -/
def chPad (p : Nat) : List Byte := (0x80 : Byte) :: List.replicate (31 - p) 0

end Sys2Proof.Machine
end

