-- ==== Sys2Proof/Machine/CubeHashTables.lean ====
section
/-! DEFINITION. The CubeHash initialisation vectors `CH_IV` (41_cubehash.md R136), a constant table (10_state.md R30). The
values are what `chIvGen` (R135) computes; the table is what the hardware holds (70_reset_and_hazards.md R236). -/

namespace Sys2Proof.Machine

/-- `CH_IV[28]` (R136). -/
def chIv28 : ChState := #v[
  0xB0FC8217, 0x1BEE1A90, 0x829E1A22, 0x6362C342, 0x24D91C30, 0x03A7AA24, 0xA63721C8, 0x85B0E2EF,
  0xF35D13F3, 0x41DA807D, 0x21A70CA6, 0x1F4E9774, 0xB3E1C932, 0xEB0A79A8, 0xCDDAAA66, 0xE2F6ECAA,
  0x0A713362, 0xAA3080E0, 0xD8F23A32, 0xCEF15E28, 0xDB086314, 0x7F709DF7, 0xACD228A4, 0x704D6ECE,
  0xAA3EC95F, 0xE387C214, 0x3A6445FF, 0x9CAB81C3, 0xC73D4B98, 0xD277AEBE, 0xFD20151C, 0x00CB573E]

/-- `CH_IV[32]` (R136). -/
def chIv32 : ChState := #v[
  0xEA2BD4B4, 0xCCD6F29F, 0x63117E71, 0x35481EAE, 0x22512D5B, 0xE5D94E63, 0x7E624131, 0xF4CC12BE,
  0xC2D0B696, 0x42AF2070, 0xD0720C35, 0x3361DA8C, 0x28CCECA4, 0x8EF8AD83, 0x4680AC00, 0x40E5FBAB,
  0xD89041C3, 0x6107FBD5, 0x6C859D41, 0xF0B26679, 0x09392549, 0x5FA25603, 0x65C892FD, 0x93CB6285,
  0x2AF2B5AE, 0x9E4B4E60, 0x774ABFDD, 0x85254725, 0x15815AEB, 0x4AB6AAD6, 0x9CDAF8AF, 0xD6032C0A]

/-- `CH_IV[48]` (R136). -/
def chIv48 : ChState := #v[
  0xE623087E, 0x04C00C87, 0x5EF46453, 0x69524B13, 0x1A05C7A9, 0x3528DF88, 0x6BDD01B5, 0x5057B792,
  0x6AA7A922, 0x649C7EEE, 0xF426309F, 0xCB629052, 0xFC8E20ED, 0xB3482BAB, 0xF89E5E7E, 0xD83D4DE4,
  0x44BFC10D, 0x5FC1E63D, 0x2104E6CB, 0x17958F7F, 0xDBEAEF70, 0xB4B97E1E, 0x32C195F6, 0x6184A8E4,
  0x796C2543, 0x23DE176D, 0xD33BBAEC, 0x0C12E5D2, 0x4EB95A7B, 0x2D18BA01, 0x04EE475F, 0x1FC5F22E]

/-- `CH_IV[64]` (R136). -/
def chIv64 : ChState := #v[
  0x2AEA2A61, 0x50F494D4, 0x2D538B8B, 0x4167D83E, 0x3FEE2313, 0xC701CF8C, 0xCC39968E, 0x50AC5695,
  0x4D42C787, 0xA647A8B3, 0x97CF0BEF, 0x825B4537, 0xEEF864D2, 0xF22090C4, 0xD0E5CD33, 0xA23911AE,
  0xFCD398D9, 0x148FE485, 0x1B017BEF, 0xB6444532, 0x6A536159, 0x2FF5781C, 0x91FA7934, 0x0DBADEA9,
  0xD65C8A2B, 0xA5A70E75, 0xB1C62456, 0xBC796576, 0x1921C8F7, 0xE7989AF1, 0x7795D246, 0xD43E3B44]

/-- `CH_IV[h]` (R30, R136). -/
def chIv : HashSize → ChState
  | .b28 => chIv28
  | .b32 => chIv32
  | .b48 => chIv48
  | .b64 => chIv64

end Sys2Proof.Machine
end

