-- ==== Sys2Proof/Machine/State.lean ====
section
/-! DEFINITION. The state of one instance as plain data (10_state.md), the host's command port, the response, and the
state right after power-on. -/

namespace Sys2Proof.Machine

/-- The lifecycle phase `PHASE` (R25). `Ready` and `Absorbing` admit the same commands with the same effects. -/
inductive Phase where
  | uninitialized
  | ready
  | absorbing
  | finalized
deriving DecidableEq, Repr

/-- The three errors a command can end in (60_exceptions.md R200, R15). -/
inductive ErrorKind where
  | outOfRange
  | misuse
  | illegalCommand
deriving DecidableEq, Repr

/-- The outcome of a command, exactly four (R200). -/
inductive Status where
  | ok
  | error (e : ErrorKind)
deriving DecidableEq, Repr

/-- The response to a command (30_encoding.md R81); `PLEN` is the payload's length and the payload is `DIGEST`, lowest
index first, or nothing. -/
structure Response where
  status : Status
  payload : List Byte
deriving DecidableEq, Repr

/-- A byte-addressed space: the bytes listed, at strictly rising addresses; an unlisted address holds no value (log 6). -/
abbrev Memory := List Host.Cell

/-- One command as the host presents it: the descriptor, and the DATA array as a value the command carries
(20_memory.md R65, U6). -/
structure Command where
  descr : Descriptor
  data : Memory
deriving DecidableEq, Repr

/-- What the host can do to the instance between two responses: present a command (R80), or assert the reset input
(70_reset_and_hazards.md R230, R231). -/
inductive HostEvent where
  | command (c : Command)
  | resetInput
deriving DecidableEq, Repr

/-- Why the machine stops. -/
inductive Fault where
  /-- Raised by `ABSORB` alone, when the host did not supply a byte of `DATA[OFF..OFF+LEN-1]` that its `DLEN` claims:
  outside the spec's domain (U6, R65; log 6). Safe: the model stops where the hardware's behaviour is not given. -/
  | dataAbsent
deriving DecidableEq, Repr

/-- Why a command has no meaning. -/
inductive Refusal where
  /-- Raised by an arm of `exec` whose instruction has no meaning yet; no arm raises it. Safe. -/
  | notModelled (mnemonic : String)
deriving DecidableEq, Repr

/-- The state of one instance (10_state.md section 1), with the command port and the response. -/
structure State where
  /-- `ALG` (R20): fixed at construction. -/
  alg : Alg
  /-- `HASHSIZE` (R20): fixed at construction. -/
  hashSize : HashSize
  /-- `X[0..31]` (R21): the Internal State of a CubeHash instance; never touched in a JH instance (R23, log 8). -/
  x : ChState
  /-- `H[0..15]` (R22): the Internal State of a JH instance; never touched in a CubeHash instance (R23, log 8). -/
  h : JhState
  /-- `BUF[0..POS-1]` (R26): the valid bytes of the Pending Buffer; `POS` (R27) is their number (log 5). -/
  buf : List Byte
  /-- `COUNT` (R28): bytes submitted since the last `INIT`. -/
  count : Word64
  /-- `PHASE` (R25). -/
  phase : Phase
  /-- `DATA` (R50): the array that came with the command in hand. -/
  data : Memory
  /-- The response to the last command (R81), if one has been given since reset (log 9). -/
  response : Option Response
  /-- What the host will present, in issue order (R64, log 7). -/
  inbox : List HostEvent
  /-- The model's own counter behind the free values of the reset input (log 3). -/
  resets : Nat
deriving DecidableEq, Repr

/-- An instance built with `alg` and `hashSize`, right after power-on (70_reset_and_hazards.md R230). `PHASE` is the
spec's; `X`, `H`, `BUF`, `POS` and `COUNT`, which the spec leaves unspecified, are zero or empty: DESIGN CHOICE (log 2),
unsafe. -/
def State.powerOn (alg : Alg) (hashSize : HashSize) : State where
  alg := alg
  hashSize := hashSize
  x := Vector.replicate 32 0
  h := Vector.replicate 16 0
  buf := []
  count := 0
  phase := .uninitialized
  data := []
  response := none
  inbox := []
  resets := 0

/-- The instance of `Config` right after power-on. -/
def State.reset : State := State.powerOn Config.alg Config.hashSize

end Sys2Proof.Machine
end

