-- ==== Sys2Proof/Machine/Flags.lean ====
section
/-! DEFINITION. The hardware has no flags or condition codes (10_state.md R29): all a command reports is the 8-bit `STATUS`
of its response, whose codes stand here (60_exceptions.md R200). -/

namespace Sys2Proof.Machine

/-- The code of an error (R200). -/
def ErrorKind.code : ErrorKind → Byte
  | .outOfRange => 0x01
  | .misuse => 0x02
  | .illegalCommand => 0x03

/-- The 8-bit `STATUS` of an outcome (R200, R81). -/
def Status.code : Status → Byte
  | .ok => 0x00
  | .error e => e.code

/-- `PLEN`: how many payload bytes a response carries (R81). -/
def Response.plen (r : Response) : Nat := r.payload.length

end Sys2Proof.Machine
end

