-- ==== Sys2Proof/Machine/Jh.lean ====
section
/-! DEFINITION. The JH engine (42_jh.md): the layers of a round (R160 to R166), E8 (R167), the block transform (R169), the
pad string (R171) and the digest (R172). The round constants are an argument, so that what holds for every table can be
said so (92_eei_decisions.md D14). The conflicts C3, C5, C8 and C9 of 90_conflicts.md are followed. -/

namespace Sys2Proof.Machine

/-- The eight words one pass works on (R160): m0..m3 from the even rows, m4..m7 from the odd rows. -/
structure JhPass where
  m0 : Word64
  m1 : Word64
  m2 : Word64
  m3 : Word64
  m4 : Word64
  m5 : Word64
  m6 : Word64
  m7 : Word64
deriving DecidableEq, Repr

/-- The words of pass i (R160). -/
def jhPass (s : JhState) (i : Fin 2) : JhPass where
  m0 := s[0 + i.val]
  m1 := s[4 + i.val]
  m2 := s[8 + i.val]
  m3 := s[12 + i.val]
  m4 := s[2 + i.val]
  m5 := s[6 + i.val]
  m6 := s[10 + i.val]
  m7 := s[14 + i.val]

/-- The state whose passes are `p` and `q`: "write (m0..m7) back to the words of pass i" for both (R166). -/
def jhOfPasses (p q : JhPass) : JhState :=
  #v[p.m0, q.m0, p.m4, q.m4, p.m1, q.m1, p.m5, q.m5, p.m2, q.m2, p.m6, q.m6, p.m3, q.m3, p.m7, q.m7]

/-! ## The layers -/

/-- `JH_XORIN`: the eight message words into the first eight state words (R161). -/
def jhXorin (m : JhBlockWords) (s : JhState) : JhState :=
  Vector.ofFn fun i : Fin 16 => if h : i.val < 8 then s[i.val] ^^^ m[i.val] else s[i.val]

/-- `JH_SS`: the nonlinear layer of one pass, the eleven lines in order, left column and right column (R162). -/
def jhSS (m : JhPass) (cc0 cc1 : Word64) : JhPass :=
  let ⟨m0, m1, m2, m3, m4, m5, m6, m7⟩ := m
  let m3 := not64 m3
  let m7 := not64 m7
  let m0 := m0 ^^^ (not64 m2 &&& cc0)
  let m4 := m4 ^^^ (not64 m6 &&& cc1)
  let t0 := cc0 ^^^ (m0 &&& m1)
  let t1 := cc1 ^^^ (m4 &&& m5)
  let m0 := m0 ^^^ (m2 &&& m3)
  let m4 := m4 ^^^ (m6 &&& m7)
  let m3 := m3 ^^^ (not64 m1 &&& m2)
  let m7 := m7 ^^^ (not64 m5 &&& m6)
  let m1 := m1 ^^^ (m0 &&& m2)
  let m5 := m5 ^^^ (m4 &&& m6)
  let m2 := m2 ^^^ (m0 &&& not64 m3)
  let m6 := m6 ^^^ (m4 &&& not64 m7)
  let m0 := m0 ^^^ (m1 ||| m3)
  let m4 := m4 ^^^ (m5 ||| m7)
  let m3 := m3 ^^^ (m1 &&& m2)
  let m7 := m7 ^^^ (m5 &&& m6)
  let m1 := m1 ^^^ (t0 &&& m0)
  let m5 := m5 ^^^ (t1 &&& m4)
  let m2 := m2 ^^^ t0
  let m6 := m6 ^^^ t1
  ⟨m0, m1, m2, m3, m4, m5, m6, m7⟩

/-- `JH_L`: the linear layer of one pass, the eight lines in order (R163). -/
def jhL (m : JhPass) : JhPass :=
  let ⟨m0, m1, m2, m3, m4, m5, m6, m7⟩ := m
  let m4 := m4 ^^^ m1
  let m5 := m5 ^^^ m2
  let m6 := m6 ^^^ m0 ^^^ m3
  let m7 := m7 ^^^ m0
  let m0 := m0 ^^^ m5
  let m1 := m1 ^^^ m6
  let m2 := m2 ^^^ m4 ^^^ m7
  let m3 := m3 ^^^ m4
  ⟨m0, m1, m2, m3, m4, m5, m6, m7⟩

/-- `MASK_n` for n in {1, 2, 4, 8, 16, 32} (R164); no rule forms another n. -/
def jhMask : Nat → Word64
  | 1 => 0x5555555555555555
  | 2 => 0x3333333333333333
  | 4 => 0x0F0F0F0F0F0F0F0F
  | 8 => 0x00FF00FF00FF00FF
  | 16 => 0x0000FFFF0000FFFF
  | 32 => 0x00000000FFFFFFFF
  | _ => 0

/-- `JH_SWAP`: exchange every aligned group of n bits with its neighbour group (R164). -/
def jhSwap (v : Word64) (n : Nat) : Word64 :=
  shl64 (v &&& jhMask n) n ||| (shr64 v n &&& jhMask n)

/-- The swap of a pass, on the odd-row words only (R166). -/
def jhSwapOdd (m : JhPass) (n : Nat) : JhPass :=
  { m with m4 := jhSwap m.m4 n, m5 := jhSwap m.m5 n, m6 := jhSwap m.m6 n, m7 := jhSwap m.m7 n }

/-- `JH_WSWAP`: exchange the two words of every odd row (R165). -/
def jhWSwap (s : JhState) : JhState :=
  #v[s[0], s[1], s[3], s[2], s[4], s[5], s[7], s[6], s[8], s[9], s[11], s[10], s[12], s[13], s[15], s[14]]

/-! ## Round, E8, block transform -/

/-- Pass i of round R up to the write back: `JH_SS` with entries 4R + i and 4R + 2 + i, `JH_L`, and for R mod 7 ≤ 5 the
swap of distance 2^(R mod 7) (R166). -/
def jhPassRound (rc : List Word64) (R : Nat) (s : JhState) (i : Fin 2) : JhPass :=
  let m := jhL (jhSS (jhPass s i) (rc.getD (4 * R + i) 0) (rc.getD (4 * R + 2 + i) 0))
  if R % 7 ≤ 5 then jhSwapOdd m (2 ^ (R % 7)) else m

/-- `JH_ROUND` (R166): both passes, then for R mod 7 = 6 the word swap. -/
def jhRound (rc : List Word64) (R : Nat) (s : JhState) : JhState :=
  let s' := jhOfPasses (jhPassRound rc R s 0) (jhPassRound rc R s 1)
  if R % 7 = 6 then jhWSwap s' else s'

/-- `JH_E8`: rounds 0 to 41 (R167). -/
def jhE8 (rc : List Word64) (s : JhState) : JhState :=
  (List.range 42).foldl (fun s R => jhRound rc R s) s

/-- `JH_XOROUT`: the eight message words into the second eight state words (R168). -/
def jhXorout (m : JhBlockWords) (s : JhState) : JhState :=
  Vector.ofFn fun i : Fin 16 => if h : i.val < 8 then s[i.val] else s[i.val] ^^^ m[i.val - 8]

/-- `JH_BLOCK` (R169). -/
def jhBlock (rc : List Word64) (m : JhBlockWords) (s : JhState) : JhState :=
  jhXorout m (jhE8 rc (jhXorin m s))

/-! ## Padding and digest -/

/-- The length of the pad string: 64 bytes if p = 0, else 128 − p (R171). -/
def jhPadLength (p : Nat) : Nat := if p = 0 then 64 else 128 - p

/-- `bits = (COUNT * 8) mod 2^64` (R171; beyond 2^61 bytes log 12). -/
def jhBitLength (count : Word64) : Word64 := count * 8

/-- The JH pad string: `0x80`, zero bytes, the big-endian bit length (R171, 20_memory.md R59). -/
def jhPad (p : Nat) (count : Word64) : List Byte :=
  (0x80 : Byte) :: (List.replicate (jhPadLength p - 9) 0 ++ unbe64 (jhBitLength count))

/-- Word k of the state; the rules form no index above 15 (R14). -/
def jhWord (s : JhState) (k : Nat) : Word64 := s.toList.getD k 0

/-- `JH_RESULT`: with t = 128 − HASHSIZE + j, `DIGEST[j] = (H[t div 8] >> (8 (t mod 8))) and 0xFF` for j below HASHSIZE
(R172). -/
def jhResult (h : HashSize) (s : JhState) : List Byte :=
  (List.range h.bytes).map fun j =>
    (jhWord s ((128 - h.bytes + j) / 8) >>> (8 * ((128 - h.bytes + j) % 8))).setWidth 8

/-- The whole state as 128 bytes, word 0 first, each word little-endian (20_memory.md R58). -/
def jhSerial (s : JhState) : List Byte := s.toList.flatMap unle64

end Sys2Proof.Machine
end

