-- ==== Sys2Proof/Machine/Ops.lean ====
section
/-! DEFINITION. The operations the commands share: reading DATA (00_scope.md R14), the Pending Buffer (40_block_buffer.md R100,
R101), the response and the taking of an error (60_exceptions.md R205), accepting what the host presents, the reset input
(70_reset_and_hazards.md R230). -/

namespace Sys2Proof.Machine

/-! ## DATA (R14, R50) -/

/-- Every address is below 2^31 (20_memory.md R51) and above `lo`, and the addresses rise strictly. -/
def cellsRiseFrom (lo : Nat) : Memory → Bool
  | [] => true
  | (a, _) :: rest => decide (lo ≤ a) && decide (a < 2147483648) && cellsRiseFrom (a + 1) rest

/-- The canonical form: strictly rising addresses below 2^31. An unlisted address holds no value, so no entry can equal
what it reads as. -/
def Memory.wf (m : Memory) : Bool := cellsRiseFrom 0 m

/-- One byte of a space, `MemRead(space, a, 1)` (R14); nothing at an unlisted address (log 6). -/
def Memory.read : Memory → Nat → Option Byte
  | [], _ => none
  | (b, v) :: rest, a => if a = b then some v else Memory.read rest a

/-- `MemRead(space, a, n)`, lowest index first (R14, R61); nothing if a byte is absent. -/
def Memory.readRange (m : Memory) : Nat → Nat → Option (List Byte)
  | _, 0 => some []
  | a, n + 1 =>
    match Memory.read m a, Memory.readRange m (a + 1) n with
    | some b, some bs => some (b :: bs)
    | _, _ => none

/-- `MemWrite(space, a, 1, v)` (R14), in canonical form: the host's own write of DATA; the core never writes it (R50). -/
def Memory.write : Memory → Nat → Byte → Memory
  | [], a, v => [(a, v)]
  | (b, w) :: rest, a, v =>
    if a < b then (a, v) :: (b, w) :: rest
    else if a = b then (a, v) :: rest
    else (b, w) :: Memory.write rest a v

/-- Bytes at a, a + 1, …. -/
def cellsFrom : Nat → List Byte → Memory
  | _, [] => []
  | a, b :: bs => (a, b) :: cellsFrom (a + 1) bs

/-- The DATA array of the given bytes, `DATA[0..n−1]` (U6). -/
def Memory.ofBytes (bs : List Byte) : Memory := cellsFrom 0 bs

/-! ## Views of the state -/

/-- `POS`: how many bytes of the Pending Buffer are valid (R27, U2; log 5). -/
def State.pos (s : State) : Nat := s.buf.length

/-- `BLOCKSIZE` of the instance (R8). -/
def State.blockSize (s : State) : Nat := s.alg.blockSize

/-- The phases that admit `ABSORB`, `FINAL` and `TFINAL` (R202). -/
def Phase.admitsInput : Phase → Bool
  | .ready => true
  | .absorbing => true
  | .uninitialized => false
  | .finalized => false

/-- The phase that admits `RESULT` (R202). -/
def Phase.admitsResult : Phase → Bool
  | .finalized => true
  | .uninitialized => false
  | .ready => false
  | .absorbing => false

/-! ## Response and errors -/

/-- "respond OK" with a payload (30_encoding.md R81). -/
def State.respondOk (s : State) (payload : List Byte) : State :=
  { s with response := some ⟨.ok, payload⟩ }

/-- Taking an error, the machine's only exception (R15, R205): the response is its status with no payload and nothing else
changes. There is no handler, no saved state and nothing to return from (R206). -/
def State.raise (s : State) (e : ErrorKind) : State :=
  { s with response := some ⟨.error e, []⟩ }

/-! ## The Pending Buffer -/

/-- `TRANSFORM`: the full buffer to the active engine (R101). -/
def transform (s : State) : State :=
  match s.alg with
  | .cubehash => { s with x := chBlock (chLoad s.buf) s.x }
  | .jh => { s with h := jhBlock jhRc (jhLoad s.buf) s.h }

/-- `BUF_PUSH` (R100): the byte goes to `BUF[POS]`; if that fills the buffer, the block transform runs and `POS` is 0. -/
def bufPush (s : State) (b : Byte) : State :=
  let s' := { s with buf := s.buf ++ [b] }
  if s'.pos = s'.blockSize then { transform s' with buf := [] } else s'

/-- `BUF_PUSH` of each byte in order. -/
def pushAll (s : State) (bs : List Byte) : State := bs.foldl bufPush s

/-- `COUNT + len` (R28, R103); at 2^61 and beyond, outside the admitted domain (U3), a free value (log 4). -/
def countAfter (count : Word64) (len : Nat) : Word64 :=
  if count.toNat + len < messageBound then BitVec.ofNat 64 (count.toNat + len) else Config.countBeyond count len

/-- The engine state loaded with the IV of the configured HASHSIZE (R102). -/
def loadIv (s : State) : State :=
  match s.alg with
  | .cubehash => { s with x := chIv s.hashSize }
  | .jh => { s with h := jhIv s.hashSize }

/-! ## The host's side -/

/-- The core accepts a presented command: it leaves the port, and its DATA array is the one in force (R65, log 6, log 7). -/
def accept (s : State) (c : Command) (rest : List HostEvent) : State :=
  { s with inbox := rest, data := c.data }

/-- With nothing presented the core waits (R64, log 7). -/
def idle (s : State) : State := s

/-- The reset input (R230, R231): `PHASE` is Uninitialized, the active engine's state, `BUF`, `POS` and `COUNT` are
unspecified (free values, log 3), no response is produced, the construction values stay. -/
def hardwareReset (s : State) : State :=
  { s with
    phase := .uninitialized
    x := if s.alg = .cubehash then Config.resetX s.resets else s.x
    h := if s.alg = .jh then Config.resetH s.resets else s.h
    buf := (Config.resetBuf s.resets).take (s.blockSize - 1)
    count := Config.resetCount s.resets
    response := none
    resets := s.resets + 1 }

/-- The core takes the reset input from the port. -/
def acceptReset (s : State) (rest : List HostEvent) : State := hardwareReset { s with inbox := rest }

/-- A command presented ahead of whatever else the host will present; its DATA array is the one already in force
(log 14). -/
def presentDescriptor (s : State) (d : Descriptor) : State :=
  { s with inbox := .command ⟨d, s.data⟩ :: s.inbox }

end Sys2Proof.Machine
end

