-- ==== Sys2Proof/Machine/Finalisation.lean ====
section
/-! DEFINITION. The closing steps of both engines on the state: `CH_FINAL` (41_cubehash.md R137), `JH_FINAL` (42_jh.md R171),
and the digest (`CH_RESULT` R138, `JH_RESULT` R172). -/

namespace Sys2Proof.Machine

/-- `CH_FINAL` (R137): the pad string through `BUF_PUSH`, then the XOR and the ten blank transforms. -/
def chFinal (s : State) : State :=
  let s' := pushAll s (chPad s.pos)
  { s' with x := chClose s'.x }

/-- `JH_FINAL` (R171): the pad string, its length field from `COUNT` as it stands before any padding, through
`BUF_PUSH`. -/
def jhFinal (s : State) : State := pushAll s (jhPad s.pos s.count)

/-- The state changes of `FINAL` (40_block_buffer.md R104). -/
def finalise (s : State) : State :=
  match s.alg with
  | .cubehash => { chFinal s with phase := .finalized }
  | .jh => { jhFinal s with phase := .finalized }

/-- `DIGEST[0..HASHSIZE-1]` of the state (R105). -/
def digest (s : State) : List Byte :=
  match s.alg with
  | .cubehash => chResult s.hashSize s.x
  | .jh => jhResult s.hashSize s.h

end Sys2Proof.Machine
end

