-- ==== Sys2Proof/Machine/Commands.lean ====
section
/-! DEFINITION. The meaning of the five commands (40_block_buffer.md R102 to R106). `IllegalCommand`, the first check of each
rule, is raised before a command exists, where the descriptor is decoded (60_exceptions.md R203, R204). -/

namespace Sys2Proof.Machine

/-- `INIT` (R102): accepted in every phase. -/
def execInit (s : State) : Host.Outcome State Fault Refusal :=
  .next (({ loadIv s with buf := [], count := 0, phase := .ready } : State).respondOk [])

/-- `ABSORB` (R103): the phase first (R204), then the range check (R201), then the bytes. -/
def execAbsorb (off len dlen : Int) (s : State) : Host.Outcome State Fault Refusal :=
  if s.phase.admitsInput = false then .next (s.raise .misuse)
  else if rangeOk off len dlen = false then .next (s.raise .outOfRange)
  else
    match Memory.readRange s.data off.toNat len.toNat with
    | none => .fault .dataAbsent
    | some bs =>
      .next (({ pushAll s bs with count := countAfter s.count len.toNat, phase := .absorbing } : State).respondOk [])

/-- `FINAL` (R104). -/
def execFinal (s : State) : Host.Outcome State Fault Refusal :=
  if s.phase.admitsInput = false then .next (s.raise .misuse) else .next ((finalise s).respondOk [])

/-- `RESULT` (R105): the digest, and no register changes. -/
def execResult (s : State) : Host.Outcome State Fault Refusal :=
  if s.phase.admitsResult = false then .next (s.raise .misuse) else .next (s.respondOk (digest s))

/-- `TFINAL` (R106): the state changes of `FINAL` and the payload of `RESULT` from the state they leave. -/
def execTfinal (s : State) : Host.Outcome State Fault Refusal :=
  if s.phase.admitsInput = false then .next (s.raise .misuse)
  else .next ((finalise s).respondOk (digest (finalise s)))

end Sys2Proof.Machine
end

