-- ==== Sys2Proof/Machine/Dispatch.lean ====
section
/-! DEFINITION. One arm for each constructor of Instr (30_encoding.md R85). -/

namespace Sys2Proof.Machine

def exec (i : Instr) (s : State) : Host.Outcome State Fault Refusal :=
  match i with
  | .init => Sys2Proof.Machine.execInit s
  | .absorb off len dlen => Sys2Proof.Machine.execAbsorb off len dlen s
  | .final => Sys2Proof.Machine.execFinal s
  | .result => Sys2Proof.Machine.execResult s
  | .tfinal => Sys2Proof.Machine.execTfinal s

end Sys2Proof.Machine
end

