-- ==== Sys2Proof/Machine/Step.lean ====
section
/-! DEFINITION. One step of the machine: the core takes the next event the host presents (20_memory.md R64; log 7). There is no
program counter and no fetch (10_state.md R24). -/

namespace Sys2Proof.Machine

/-- One step. Nothing presented: the core waits. The reset input: R230. A command: decoded, then `IllegalCommand` (R203)
or the command's meaning. -/
def step (s : State) : Host.Outcome State Fault Refusal :=
  match s.inbox with
  | [] => .next (idle s)
  | .resetInput :: rest => .next (acceptReset s rest)
  | .command c :: rest =>
    match decode c.descr with
    | .error _ => .next ((accept s c rest).raise .illegalCommand)
    | .ok i => exec i (accept s c rest)

/-- The state with a table word presented as the next command (log 14). -/
def State.withFetchWord (s : State) (nbits w : Nat) : State :=
  presentDescriptor s (descriptorOfTableWord nbits w)

end Sys2Proof.Machine
end

