-- ==== Sys2Proof/Machine/JhDerivation.lean ====
section
/-! DEFINITION. Where the JH tables come from: the derivation of `JH_IV` (43_jh_constants.md R193) and of `JH_RC` (R194). The
hardware runs neither (R193: the tables are constants); the functions tie the tables to the rules. -/

namespace Sys2Proof.Machine

/-! ## The IV (R193) -/

/-- The start state: the digest size in bits, 16 bits big-endian, as the first two bytes, the other 126 bytes zero. -/
def jhIvSeed (h : HashSize) : JhState :=
  Vector.ofFn fun k : Fin 16 =>
    if k.val = 0 then le64 (BitVec.ofNat 8 (8 * h.bytes / 256)) (BitVec.ofNat 8 (8 * h.bytes)) 0 0 0 0 0 0 else 0

/-- `JH_IV[h]` from the start state: `JH_BLOCK` with the all-zero message block (R193). -/
def jhIvGen (rc : List Word64) (h : HashSize) : JhState :=
  jhBlock rc (Vector.replicate 8 0) (jhIvSeed h)

/-! ## The round constants (R194) -/

/-- The S-box S0, the "constant bit 0" row of R162's table. -/
def jhS0 : List Nat := [9, 0, 4, 11, 13, 12, 3, 15, 1, 10, 2, 6, 7, 5, 8, 14]

/-- The S-box S1, the "constant bit 1" row of R162's table. -/
def jhS1 : List Nat := [3, 12, 6, 13, 5, 7, 1, 9, 15, 2, 0, 4, 11, 10, 14, 8]

/-- Multiplication by 2 in GF(2^4) modulo x^4 + x + 1 (R163). -/
def gfDouble (a : Nat) : Nat := if a < 8 then 2 * a else (2 * a) % 16 ^^^ 3

/-- The linear map on a pair of elements: B' = B + 2·A, A' = A + 2·B' (R163). -/
def jhMds (a b : Nat) : Nat × Nat :=
  let b' := b ^^^ gfDouble a
  (a ^^^ gfDouble b', b')

/-- The linear map on each pair of elements (2i, 2i+1). -/
def jhMdsPairs : List Nat → List Nat
  | a :: b :: rest => (jhMds a b).1 :: (jhMds a b).2 :: jhMdsPairs rest
  | rest => rest

/-- "swap elements 4i+2 and 4i+3". -/
def swapThirdFourth : List Nat → List Nat
  | a :: b :: c :: d :: rest => a :: b :: d :: c :: swapThirdFourth rest
  | rest => rest

/-- The elements at even positions, in order. -/
def evens : List Nat → List Nat
  | a :: _ :: rest => a :: evens rest
  | rest => rest

/-- The elements at odd positions, in order. -/
def odds : List Nat → List Nat
  | _ :: b :: rest => b :: odds rest
  | _ => []

/-- "swap each pair of adjacent elements". -/
def swapAdjacent : List Nat → List Nat
  | a :: b :: rest => b :: a :: swapAdjacent rest
  | rest => rest

/-- The permutation P_6 (R194). -/
def jhP6 (l : List Nat) : List Nat :=
  let l := swapThirdFourth l
  evens l ++ swapAdjacent (odds l)

/-- The 6-dimensional round with all-zero constants, on 64 4-bit elements (R194). -/
def jhRound6 (l : List Nat) : List Nat := jhP6 (jhMdsPairs (l.map fun a => jhS0.getD a 0))

/-- C_0 as 64 4-bit elements (R194). -/
def jhC0 : List Nat :=
  [0x6, 0xa, 0x0, 0x9, 0xe, 0x6, 0x6, 0x7, 0xf, 0x3, 0xb, 0xc, 0xc, 0x9, 0x0, 0x8,
   0xb, 0x2, 0xf, 0xb, 0x1, 0x3, 0x6, 0x6, 0xe, 0xa, 0x9, 0x5, 0x7, 0xd, 0x3, 0xe,
   0x3, 0xa, 0xd, 0xe, 0xc, 0x1, 0x7, 0x5, 0x1, 0x2, 0x7, 0x7, 0x5, 0x0, 0x9, 0x9,
   0xd, 0xa, 0x2, 0xf, 0x5, 0x9, 0x0, 0xb, 0x0, 0x6, 0x6, 0x7, 0x3, 0x2, 0x2, 0xa]

/-- C_R, C_(R+1), … for n rounds from the given constant: C_(R+1) is one round of C_R (R194). -/
def jhConstants : Nat → List Nat → List (List Nat)
  | 0, _ => []
  | n + 1, c => c :: jhConstants n (jhRound6 c)

/-- Bit j of a constant, numbered "from 0 (the most significant bit of the first byte) to 255". -/
def constantBit (c : List Nat) (j : Nat) : Nat := c.getD (j / 4) 0 / 2 ^ (3 - j % 4) % 2

/-- `rotr7(i, r)`: the 7-bit number i rotated right by r < 7 positions. -/
def rotr7 (i r : Nat) : Nat := i / 2 ^ r + i % 2 ^ r * 2 ^ (7 - r)

/-- Eight bits, the first the most significant, as a byte. -/
def byteOfBits (bits : List Nat) : Byte := BitVec.ofNat 8 (bits.foldl (fun n b => 2 * n + b) 0)

/-- The bits of lanes 0 to 127 as two little-endian words: lane i is bit (7 − i mod 8) of byte (i div 8) (R194). -/
def laneWords (bits : List Nat) : List Word64 :=
  let byte (k : Nat) : Byte := byteOfBits ((bits.drop (8 * k)).take 8)
  [le64 (byte 0) (byte 1) (byte 2) (byte 3) (byte 4) (byte 5) (byte 6) (byte 7),
   le64 (byte 8) (byte 9) (byte 10) (byte 11) (byte 12) (byte 13) (byte 14) (byte 15)]

/-- The four entries of round R from C_R: even-row bit `2·rotr7(i, r)`, odd-row bit `2·rotr7(i, r) + 1` (R194). -/
def jhRcOfConstant (R : Nat) (c : List Nat) : List Word64 :=
  laneWords ((List.range 128).map fun i => constantBit c (2 * rotr7 i (R % 7))) ++
    laneWords ((List.range 128).map fun i => constantBit c (2 * rotr7 i (R % 7) + 1))

/-- `JH_RC` as R194 generates it. -/
def jhRcGen : List Word64 :=
  ((jhConstants 42 jhC0).zipIdx.map fun p => jhRcOfConstant p.2 p.1).flatten

end Sys2Proof.Machine
end

