-- ==== Sys2Proof/Machine/Message.lean ====
section
/-! DEFINITION. Whole messages: the functions of 41_cubehash.md R139 and 42_jh.md R173, written apart from the machine, and the
host's pseudo-commands (30_encoding.md R91). -/

namespace Sys2Proof.Machine

/-! ## Blocks of a message (20_memory.md R60) -/

/-- Block number k of a message cut into blocks of n bytes: bytes n·k to n·k + n − 1. -/
def blockOf (n : Nat) (m : List Byte) (k : Nat) : List Byte := (m.drop (n * k)).take n

/-- The complete blocks of a message, in order. -/
def completeBlocks (n : Nat) (m : List Byte) : List (List Byte) := (List.range (m.length / n)).map (blockOf n m)

/-- What is left of a message after its complete blocks. -/
def lastBytes (n : Nat) (m : List Byte) : List Byte := m.drop (n * (m.length / n))

/-- `CH_BLOCK` on each block in order. -/
def chAbsorbBlocks (blocks : List (List Byte)) (x : ChState) : ChState :=
  blocks.foldl (fun x b => chBlock (chLoad b) x) x

/-- `JH_BLOCK` on each block in order. -/
def jhAbsorbBlocks (blocks : List (List Byte)) (s : JhState) : JhState :=
  blocks.foldl (fun s b => jhBlock jhRc (jhLoad b) s) s

/-! ## The whole-message functions -/

/-- The CubeHash digest of a message (R139). -/
def chMessageDigest (h : HashSize) (m : List Byte) : List Byte :=
  let x := chAbsorbBlocks (completeBlocks 32 m) (chIv h)
  let lastBlock := lastBytes 32 m ++ chPad (m.length % 32)
  chResult h (chClose (chBlock (chLoad lastBlock) x))

/-- The last blocks of a padded JH message with p bytes left over: one if p = 0, else two (R173). -/
def jhLastBlocks (m : List Byte) : List (List Byte) :=
  let p := m.length % 64
  let field := unbe64 (BitVec.ofNat 64 (8 * m.length))
  if p = 0 then [(0x80 : Byte) :: List.replicate 55 0 ++ field]
  else [lastBytes 64 m ++ (0x80 : Byte) :: List.replicate (63 - p) 0, List.replicate 56 0 ++ field]

/-- The JH digest of a message of fewer than 2^61 bytes (R173). -/
def jhMessageDigest (h : HashSize) (m : List Byte) : List Byte :=
  jhResult h (jhAbsorbBlocks (completeBlocks 64 m ++ jhLastBlocks m) (jhIv h))

/-- The digest of a message by the instance's algorithm (R2, R108). -/
def messageDigest (a : Alg) (h : HashSize) (m : List Byte) : List Byte :=
  match a with
  | .cubehash => chMessageDigest h m
  | .jh => jhMessageDigest h m

/-! ## The host's pseudo-commands (R91) -/

/-- A command with its DATA, as the host presents it (R80, R65). -/
def present (i : Instr) (data : List Byte) : HostEvent := .command ⟨encode i, Memory.ofBytes data⟩

/-- `ABSORB` of `bytes` out of the DATA array `before ++ bytes ++ after` (20_memory.md R60). -/
def absorbWindow (before bytes after : List Byte) : HostEvent :=
  present (.absorb before.length bytes.length (before ++ bytes ++ after).length) (before ++ bytes ++ after)

/-- `ABSORBALL <data>`: `ABSORB <data>, 0, |data|`. -/
def absorbAll (data : List Byte) : HostEvent := present (.absorb 0 data.length data.length) data

/-- `HASH <data>`: `INIT`, `ABSORBALL <data>`, `TFINAL`. -/
def hashAll (data : List Byte) : List HostEvent := [present .init [], absorbAll data, present .tfinal []]

end Sys2Proof.Machine
end

