-- ==== Sys2Proof/Safety.lean ====
section
/-! DEFINITION. The terms claims are made in: the invariant of the machine, the admitted domain, what a stream of commands
delivers, and which commands a phase admits. -/

namespace Sys2Proof.Machine

/-! ## The invariant -/

/-- "0 ≤ Pos < BlockSize" at every command boundary (10_state.md R27). -/
def State.BufferFits (s : State) : Prop := s.pos < s.blockSize

/-- The active engine's state is the IV of the configured HASHSIZE (40_block_buffer.md R102). -/
def State.EngineIsIv (s : State) : Prop :=
  match s.alg with
  | .cubehash => s.x = chIv s.hashSize
  | .jh => s.h = jhIv s.hashSize

/-- "`Ready (post-IV)`": an empty message (R25, R232). -/
def State.ReadyIsFresh (s : State) : Prop := s.phase = .ready → s.buf = [] ∧ s.count = 0 ∧ s.EngineIsIv

/-- After finalisation `POS` is 0 (R27, R104). -/
def State.FinalizedIsPadded (s : State) : Prop := s.phase = .finalized → s.buf = []

/-- A response carries HASHSIZE bytes or none, and an error none (30_encoding.md R81). -/
def Response.WellSized (hs : HashSize) (r : Response) : Prop :=
  match r.status with
  | .ok => r.payload = [] ∨ r.payload.length = hs.bytes
  | .error _ => r.payload = []

/-- The DATA array an event brings is in canonical form. -/
def HostEvent.Canonical (e : HostEvent) : Prop :=
  match e with
  | .command c => Memory.wf c.data = true
  | .resetInput => True

/-- What holds at reset and after every step. -/
structure State.Inv (s : State) : Prop where
  bufferFits : s.BufferFits
  readyIsFresh : s.ReadyIsFresh
  finalizedIsPadded : s.FinalizedIsPadded
  responseSized : ∀ r, s.response = some r → r.WellSized s.hashSize
  dataCanonical : Memory.wf s.data = true
  inboxCanonical : ∀ e ∈ s.inbox, e.Canonical

/-- "The invariant `COUNT mod BLOCKSIZE = POS` holds in phases `Ready` and `Absorbing`" (R28). -/
def State.CountMatchesPos (s : State) : Prop := s.phase.admitsInput = true → s.count.toNat % s.blockSize = s.pos

/-! ## The admitted domain (70_reset_and_hazards.md R240) -/

/-- The presented command, if it is an `ABSORB`, keeps `COUNT` below 2^61. -/
def State.StaysBelowBound (s : State) : Prop :=
  ∀ c rest off len dlen, s.inbox = .command c :: rest → decode c.descr = .ok (.absorb off len dlen) →
    s.count.toNat + len.toNat < messageBound

/-! ## Streams (40_block_buffer.md R107) -/

/-- The event delivers the bytes `m` to the message: an `ABSORB` of the window that holds them in its DATA array, which is
shorter than 2^31 bytes (20_memory.md R51), or an `ABSORB` out of range, which delivers nothing. -/
def Delivers (e : HostEvent) (m : List Byte) : Prop :=
  (∃ before after, (before ++ m ++ after).length < 2147483648 ∧ e = absorbWindow before m after) ∨
  (m = [] ∧ ∃ c off len dlen, e = .command c ∧ decode c.descr = .ok (.absorb off len dlen) ∧
    (off < 0 ∨ len < 0 ∨ off + len > dlen))

/-- The message a list of events delivers, with the bytes of each beside it. -/
def messageOf (items : List (HostEvent × List Byte)) : List Byte := (items.map Prod.snd).flatten

/-! ## Phases (60_exceptions.md R202) -/

/-- R202's table: the phases that admit a command. -/
def Admits (i : Instr) (p : Phase) : Prop :=
  match i with
  | .init => True
  | .absorb _ _ _ => p = .ready ∨ p = .absorbing
  | .final => p = .ready ∨ p = .absorbing
  | .tfinal => p = .ready ∨ p = .absorbing
  | .result => p = .finalized

/-- The one case in which the model stops (log 6): the command is an `ABSORB` that the phase admits and whose range is in
bounds, and the host did not supply a byte of the range. -/
def LacksData (i : Instr) (s : State) : Prop :=
  ∃ off len dlen : Int, i = .absorb off len dlen ∧ Admits i s.phase ∧ 0 ≤ off ∧ 0 ≤ len ∧ off + len ≤ dlen ∧
    ∃ k, k < len.toNat ∧ Memory.read s.data (off.toNat + k) = none

/-- The descriptor is answered by `IllegalCommand` from every state and changes nothing but the response, the port and the
DATA array presented with it (60_exceptions.md R203, R205). -/
def AnsweredIllegal (d : Descriptor) : Prop :=
  ∀ (s : State) (data : Memory) (rest : List HostEvent), s.inbox = .command ⟨d, data⟩ :: rest →
    step s = .next { s with inbox := rest, data := data, response := some ⟨.error .illegalCommand, []⟩ }

/-! ## Lanes (42_jh.md R160) -/

/-- Bit k of four words as a 4-bit lane value, the first word the most significant. -/
def laneValue (a b c d : Word64) (k : Nat) : Nat :=
  8 * (a.getLsbD k).toNat + 4 * (b.getLsbD k).toNat + 2 * (c.getLsbD k).toNat + (d.getLsbD k).toNat

/-! ## Observation -/

/-- Two states a host cannot tell apart: the same construction values, phase, port and response, and, once `INIT` has
been accepted, the same message state (70_reset_and_hazards.md R230). -/
structure SameToTheHost (s t : State) : Prop where
  alg : s.alg = t.alg
  hashSize : s.hashSize = t.hashSize
  phase : s.phase = t.phase
  inbox : s.inbox = t.inbox
  response : s.response = t.response
  message : s.phase ≠ .uninitialized →
    s.buf = t.buf ∧ s.count = t.count ∧ (s.alg = .cubehash → s.x = t.x) ∧ (s.alg = .jh → s.h = t.h)

end Sys2Proof.Machine
end

