-- ==== Sys2Proof/Certificates/Slice0/Obligations.lean ====
section
/-! DEFINITION. The statements for the provers. Each docstring names the rule of spec/ the statement formalises. Where a
statement says what an instruction does, `{ s with … }` names everything it changes; every other field of State is as before. -/

open Sys2Proof Sys2Proof.Machine

/-! ## Encoding (30_encoding.md) -/

/-- Descriptors written out from R80, R84 and R85, decoded, and six illegal ones of R87. -/
def Obligations.WrittenDescriptorsDecode : Prop :=
  decode 0x00000000000000000000000000000001 = .ok .init ∧
  decode 0x00000003000000010000000200000002 = .ok (.absorb 2 1 3) ∧
  decode 0x80000000FFFFFFFF7FFFFFFF00000002 = .ok (.absorb 2147483647 (-1) (-2147483648)) ∧
  decode 0x00000000000000000000000000000003 = .ok .final ∧
  decode 0x00000000000000000000000000000004 = .ok .result ∧
  decode 0x00000000000000000000000000000005 = .ok .tfinal ∧
  decode 0x00000000000000000000000000000101 = .error .reservedBitSet ∧
  decode 0x00000004FFFFFFFF0000000000000102 = .error .reservedBitSet ∧
  decode 0x80000000000000000000000000000004 = .error .reservedBitSet ∧
  decode 0x00000000000000000000000100000003 = .error .reservedBitSet ∧
  decode 0x00000000000000000000000000000000 = .error .unknownOpcode ∧
  decode 0x00000000000000000000000000000007 = .error .unknownOpcode

/-- Decoding the encoding of a well-formed command gives it back, with every operand at every value its field admits
(R80, R84, R85). -/
def Obligations.DecodeOfEncodeIsTheCommand : Prop :=
  ∀ i : Instr, i.wellFormed = true → decode (encode i) = .ok i

/-- A descriptor that decodes is the encoding of the command it decodes to, which is well formed: no bit is dropped and no
two descriptors are one command (R80, R85, R88). -/
def Obligations.EncodeOfDecodeIsTheDescriptor : Prop :=
  ∀ (d : Descriptor) (i : Instr), decode d = .ok i → i.wellFormed = true ∧ encode i = d

/-- The decoder accepts exactly the descriptors that one row of the opcode map, in match and mask form, covers (R85). -/
def Obligations.DecoderAcceptsWhatOneRowCovers : Prop :=
  ∀ d : Descriptor, (∃ i, decode d = .ok i) ↔ (opcodeRows.filter fun r => r.covers d).length = 1

/-- R87: the listed descriptors are illegal, `IllegalCommand` with no state changed (the port and the DATA presented with the
descriptor apart), whatever the state; every other descriptor is a command. -/
def Obligations.IllegalDescriptorsAreTheListedOnes : Prop :=
  ∀ d : Descriptor,
    ((d.op = 0 ∨ 6 ≤ d.op.toNat ∨ ((d.op = 1 ∨ d.op = 3 ∨ d.op = 4 ∨ d.op = 5) ∧ d.zeroN ≠ 0) ∨
      (d.op = 2 ∧ d.zeroA ≠ 0)) → AnsweredIllegal d) ∧
    (¬ (d.op = 0 ∨ 6 ≤ d.op.toNat ∨ ((d.op = 1 ∨ d.op = 3 ∨ d.op = 4 ∨ d.op = 5) ∧ d.zeroN ≠ 0) ∨
      (d.op = 2 ∧ d.zeroA ≠ 0)) → ∃ i, decode d = .ok i)

/-- R84: the operands of `ABSORB` are read as two's complement, lie in −2^31 to 2^31 − 1, and the range check is over the
integers, with no 32-bit wrap-around. -/
def Obligations.AbsorbOperandsAreSignedIntegers : Prop :=
  ∀ d : Descriptor, d.op = 2 → d.zeroA = 0 → ∃ off len dlen : Int, decode d = .ok (.absorb off len dlen) ∧
    off = (d.toNat / 2 ^ 32 % 2 ^ 32 : Nat) - (if d.getLsbD 63 then 2 ^ 32 else 0) ∧
    len = (d.toNat / 2 ^ 64 % 2 ^ 32 : Nat) - (if d.getLsbD 95 then 2 ^ 32 else 0) ∧
    dlen = (d.toNat / 2 ^ 96 : Nat) - (if d.getLsbD 127 then 2 ^ 32 else 0) ∧
    (-2 ^ 31 ≤ off ∧ off ≤ 2 ^ 31 - 1) ∧ (-2 ^ 31 ≤ len ∧ len ≤ 2 ^ 31 - 1) ∧ (-2 ^ 31 ≤ dlen ∧ dlen ≤ 2 ^ 31 - 1) ∧
    (rangeOk off len dlen = true ↔ 0 ≤ off ∧ 0 ≤ len ∧ off + len ≤ dlen)

/-- A descriptor stored as four little-endian 32-bit words, lowest address first, loads back as itself (R83). -/
def Obligations.StoredDescriptorLoadsBack : Prop :=
  ∀ d : Descriptor, d.bytes.length = 16 ∧ Descriptor.ofBytes d.bytes = d ∧
    ∀ k, k < 16 → d.bytes[k]? = some (d.extractLsb' (8 * k) 8)

/-! ## The step (20_memory.md R64, 60_exceptions.md R203) -/

/-- A presented descriptor that decodes runs the command it decodes to, in the state whose port and DATA the presentation
has set. -/
def Obligations.StepRunsThePresentedCommand : Prop :=
  ∀ (s : State) (c : Command) (rest : List HostEvent) (i : Instr), s.inbox = .command c :: rest →
    decode c.descr = .ok i → step s = exec i { s with inbox := rest, data := c.data }

/-- With nothing presented the core waits (the model's choice, log 7). -/
def Obligations.StepWithNothingPresentedWaits : Prop := ∀ s : State, s.inbox = [] → step s = .next s

/-- The reset input (70_reset_and_hazards.md R230, R231): the phase is Uninitialized, no response is produced, the
construction values stay; DATA, the engine that is not built and the rest of the port are as they were. That no response
stands (log 9) and that `POS` is in its range (log 3) are the model's reading. -/
def Obligations.ResetInputLeavesUninitialized : Prop :=
  ∀ (s : State) (rest : List HostEvent), s.inbox = .resetInput :: rest → ∃ t, step s = .next t ∧
    t.phase = .uninitialized ∧ t.response = none ∧ t.alg = s.alg ∧ t.hashSize = s.hashSize ∧ t.inbox = rest ∧
    t.pos < t.blockSize ∧ (∀ a, Memory.read t.data a = Memory.read s.data a) ∧
    (s.alg = .jh → t.x = s.x) ∧ (s.alg = .cubehash → t.h = s.h)

/-- Right after power-on, in every instance, the phase is Uninitialized, the construction values are the given ones and no
response stands (log 9) (R230). The values of `X`, `H`, `BUF`, `POS` and `COUNT` there are the model's choice (log 2) and not
stated. -/
def Obligations.PowerOnIsUninitialized : Prop :=
  ∀ (a : Alg) (h : HashSize), (State.powerOn a h).phase = .uninitialized ∧ (State.powerOn a h).alg = a ∧
    (State.powerOn a h).hashSize = h ∧ (State.powerOn a h).response = none ∧
    State.reset = State.powerOn State.reset.alg State.reset.hashSize

/-! ## The commands (40_block_buffer.md) -/

/-- R102: `INIT` is accepted in every phase, sets `POS` and `COUNT` to 0, loads the IV of the configured HASHSIZE and leads to
Ready; it answers OK; a set `ZERO` bit makes the descriptor illegal; twice in a row equals once. -/
def Obligations.InitStartsAnEmptyMessage : Prop :=
  (∀ s : State, s.alg = .cubehash → exec .init s = .next { s with
    x := chIv s.hashSize, buf := [], count := 0, phase := .ready, response := some ⟨.ok, []⟩ }) ∧
  (∀ s : State, s.alg = .jh → exec .init s = .next { s with
    h := jhIv s.hashSize, buf := [], count := 0, phase := .ready, response := some ⟨.ok, []⟩ }) ∧
  (∀ d : Descriptor, d.op = 1 → d.zeroN ≠ 0 → AnsweredIllegal d) ∧
  (∀ s t : State, exec .init s = .next t → exec .init t = .next t)

/-- R103: `ABSORB` out of an admitting phase is Misuse, out of range OutOfRange, and otherwise absorbs the bytes
`DATA[off..off+len-1]`: the engine absorbs the complete blocks of what was pending and the new bytes, as many as
`(POS + len) div BLOCKSIZE`, the rest stays pending, `COUNT` grows by `len`, the phase is Absorbing, the answer OK. The last
clause is for `COUNT + len` below 2^61, the admitted domain (U3); `AbsorbBeyondTheBoundStillRuns` is for the rest. -/
def Obligations.AbsorbAbsorbsTheRange : Prop :=
  (∀ d : Descriptor, d.op = 2 → d.zeroA ≠ 0 → AnsweredIllegal d) ∧
  (∀ (off len dlen : Int) (s : State), s.phase ≠ .ready → s.phase ≠ .absorbing →
    exec (.absorb off len dlen) s = .next { s with response := some ⟨.error .misuse, []⟩ }) ∧
  (∀ (off len dlen : Int) (s : State), (s.phase = .ready ∨ s.phase = .absorbing) →
    (off < 0 ∨ len < 0 ∨ off + len > dlen) →
    exec (.absorb off len dlen) s = .next { s with response := some ⟨.error .outOfRange, []⟩ }) ∧
  (∀ (off len dlen : Int) (s : State) (bytes : List Byte), (s.phase = .ready ∨ s.phase = .absorbing) →
    0 ≤ off → 0 ≤ len → off + len ≤ dlen → s.pos < s.blockSize → s.count.toNat + len.toNat < 2 ^ 61 →
    bytes.length = len.toNat → (∀ k, k < len.toNat → Memory.read s.data (off.toNat + k) = bytes[k]?) →
    exec (.absorb off len dlen) s = .next { s with
        x := if s.alg = .cubehash then chAbsorbBlocks (completeBlocks 32 (s.buf ++ bytes)) s.x else s.x
        h := if s.alg = .jh then jhAbsorbBlocks (completeBlocks 64 (s.buf ++ bytes)) s.h else s.h
        buf := lastBytes s.blockSize (s.buf ++ bytes)
        count := BitVec.ofNat 64 (s.count.toNat + len.toNat), phase := .absorbing, response := some ⟨.ok, []⟩ } ∧
      (completeBlocks s.blockSize (s.buf ++ bytes)).length = (s.pos + len.toNat) / s.blockSize ∧
      (lastBytes s.blockSize (s.buf ++ bytes)).length = (s.pos + len.toNat) % s.blockSize)

/-- The model's choice (log 4): an `ABSORB` that takes `COUNT` to 2^61 or beyond, outside the admitted domain (U3), still runs,
with the effects of R103 but for `COUNT`, of which nothing is said. -/
def Obligations.AbsorbBeyondTheBoundStillRuns : Prop :=
  ∀ (off len dlen : Int) (s : State) (bytes : List Byte), (s.phase = .ready ∨ s.phase = .absorbing) →
    0 ≤ off → 0 ≤ len → off + len ≤ dlen → s.pos < s.blockSize → 2 ^ 61 ≤ s.count.toNat + len.toNat →
    bytes.length = len.toNat → (∀ k, k < len.toNat → Memory.read s.data (off.toNat + k) = bytes[k]?) →
    ∃ count : Word64, exec (.absorb off len dlen) s = .next { s with
        x := if s.alg = .cubehash then chAbsorbBlocks (completeBlocks 32 (s.buf ++ bytes)) s.x else s.x
        h := if s.alg = .jh then jhAbsorbBlocks (completeBlocks 64 (s.buf ++ bytes)) s.h else s.h
        buf := lastBytes s.blockSize (s.buf ++ bytes)
        count := count, phase := .absorbing, response := some ⟨.ok, []⟩ }

/-- The corner of R103 (92_eei_decisions.md D21): an empty range anywhere in 0 ≤ OFF ≤ DLEN succeeds and changes nothing but
the phase, in the admitted domain, whatever DATA holds. -/
def Obligations.AbsorbOfNothingChangesOnlyThePhase : Prop :=
  ∀ (off dlen : Int) (s : State), (s.phase = .ready ∨ s.phase = .absorbing) → 0 ≤ off → off ≤ dlen →
    s.count.toNat < 2 ^ 61 →
    exec (.absorb off 0 dlen) s = .next { s with phase := .absorbing, response := some ⟨.ok, []⟩ }

/-- When the model stops (log 6): only an `ABSORB` in an admitting phase and in range, one of whose bytes the host did not
supply, faults; no command is refused; no step is refused. -/
def Obligations.OnlyAbsentDataStops : Prop :=
  (∀ (i : Instr) (s : State) (f : Fault), exec i s = .fault f ↔ f = .dataAbsent ∧ ∃ off len dlen : Int,
    i = .absorb off len dlen ∧ (s.phase = .ready ∨ s.phase = .absorbing) ∧ 0 ≤ off ∧ 0 ≤ len ∧ off + len ≤ dlen ∧
    ∃ k, k < len.toNat ∧ Memory.read s.data (off.toNat + k) = none) ∧
  (∀ (i : Instr) (s : State) (r : Refusal), exec i s ≠ .refused r) ∧
  (∀ (s : State) (r : Refusal), step s ≠ .refused r)

/-- R137: `FINAL` of a CubeHash instance absorbs exactly one block, the pending bytes with `0x80` and zeros up to the
boundary, XORs 1 into `X[31]`, runs ten blank transforms; `POS` is 0 afterwards and `COUNT` is neither read nor changed. -/
def Obligations.FinalClosesCubeHash : Prop :=
  ∀ s : State, s.alg = .cubehash → (s.phase = .ready ∨ s.phase = .absorbing) → s.pos < 32 →
    exec .final s = .next { s with
      x := chBlank^[10] (chFlipLast
        (chBlock (chLoad (s.buf ++ (0x80 : Byte) :: List.replicate (31 - s.pos) 0)) s.x))
      buf := [], phase := .finalized, response := some ⟨.ok, []⟩ }

/-- R171: `FINAL` of a JH instance absorbs one block if `POS` = 0, else two; the padding ends with the big-endian
`(COUNT * 8) mod 2^64` of before the padding; `POS` is 0 afterwards and `COUNT` unchanged. -/
def Obligations.FinalClosesJh : Prop :=
  ∀ s : State, s.alg = .jh → (s.phase = .ready ∨ s.phase = .absorbing) →
    (s.pos = 0 → exec .final s = .next { s with
      h := jhBlock jhRc (jhLoad ((0x80 : Byte) :: (List.replicate 55 0 ++ unbe64 (s.count * 8)))) s.h
      buf := [], phase := .finalized, response := some ⟨.ok, []⟩ }) ∧
    (0 < s.pos → s.pos < 64 → exec .final s = .next { s with
      h := jhBlock jhRc (jhLoad (List.replicate 56 0 ++ unbe64 (s.count * 8)))
        (jhBlock jhRc (jhLoad (s.buf ++ (0x80 : Byte) :: List.replicate (63 - s.pos) 0)) s.h)
      buf := [], phase := .finalized, response := some ⟨.ok, []⟩ })

/-- R105: `RESULT` in Finalized answers the digest of the engine's state and changes nothing but the response; in any other
phase it is Misuse; repeated, it answers the same; a set `ZERO` bit makes the descriptor illegal. -/
def Obligations.ResultAnswersTheDigest : Prop :=
  (∀ s : State, s.phase = .finalized → s.alg = .cubehash →
    exec .result s = .next { s with response := some ⟨.ok, chResult s.hashSize s.x⟩ }) ∧
  (∀ s : State, s.phase = .finalized → s.alg = .jh →
    exec .result s = .next { s with response := some ⟨.ok, jhResult s.hashSize s.h⟩ }) ∧
  (∀ s : State, s.phase ≠ .finalized → exec .result s = .next { s with response := some ⟨.error .misuse, []⟩ }) ∧
  (∀ s t : State, exec .result s = .next t → exec .result t = .next t) ∧
  (∀ d : Descriptor, d.op = 4 → d.zeroN ≠ 0 → AnsweredIllegal d)

/-- R106: in the phases that admit it, `TFINAL` is `FINAL` and then `RESULT`, as one command, and leaves Finalized; in the
others it is Misuse, as `FINAL` is; a set `ZERO` bit makes the descriptor illegal. -/
def Obligations.TfinalIsFinalThenResult : Prop :=
  (∀ s : State, (s.phase = .ready ∨ s.phase = .absorbing) → ∃ t u, exec .final s = .next t ∧ exec .result t = .next u ∧
    exec .tfinal s = .next u ∧ u.phase = .finalized ∧ exec .result u = .next u) ∧
  (∀ s : State, s.phase ≠ .ready → s.phase ≠ .absorbing →
    exec .tfinal s = .next { s with response := some ⟨.error .misuse, []⟩ } ∧ exec .tfinal s = exec .final s) ∧
  (∀ d : Descriptor, d.op = 5 → d.zeroN ≠ 0 → AnsweredIllegal d)

/-! ## What a command leaves alone -/

/-- The frame of every command: no command changes the construction values, the port, the model's counter, a byte of DATA
or the engine that is not built (10_state.md R20, R23; 20_memory.md R50). -/
def Obligations.CommandsLeaveTheRestAlone : Prop :=
  ∀ (i : Instr) (s t : State), exec i s = .next t →
    t.alg = s.alg ∧ t.hashSize = s.hashSize ∧ t.inbox = s.inbox ∧ t.resets = s.resets ∧
    (∀ a, Memory.read t.data a = Memory.read s.data a) ∧ (s.alg = .jh → t.x = s.x) ∧ (s.alg = .cubehash → t.h = s.h)

/-- R28's writers of `COUNT` and R21's, R22's and R27's readers: `FINAL` and `TFINAL` leave `COUNT` alone although the padding
goes through `BUF_PUSH`; `RESULT` leaves everything but the response alone. -/
def Obligations.PaddingDoesNotCount : Prop :=
  ∀ s t : State,
    (exec .final s = .next t → t.count = s.count) ∧ (exec .tfinal s = .next t → t.count = s.count) ∧
    (exec .result s = .next t → t = { s with response := t.response })

/-- Over every step: `COUNT` changes only by `INIT`, `ABSORB` and the reset input (R28). -/
def Obligations.OnlyInitAbsorbAndResetWriteCount : Prop :=
  ∀ s t : State, step s = .next t → t.count ≠ s.count →
    (∃ rest, s.inbox = .resetInput :: rest) ∨
    (∃ c rest, s.inbox = .command c :: rest ∧
      (decode c.descr = .ok .init ∨ ∃ off len dlen, decode c.descr = .ok (.absorb off len dlen)))

/-- R20: over every step, the construction values stay. -/
def Obligations.ConstructionValuesNeverChange : Prop :=
  ∀ s t : State, step s = .next t → t.alg = s.alg ∧ t.hashSize = s.hashSize

/-- Over every step, the engine that is not built is never touched (R23). -/
def Obligations.AbsentEngineIsNeverTouched : Prop :=
  ∀ s t : State, step s = .next t → (s.alg = .jh → t.x = s.x) ∧ (s.alg = .cubehash → t.h = s.h)

/-! ## Phases and errors (10_state.md R25, 60_exceptions.md) -/

/-- R25: the complete table of transitions, the reset input among them; a pair not listed is Misuse with the phase unchanged;
`Ready` and `Absorbing` admit the same commands with the same effects. -/
def Obligations.PhaseTransitionTable : Prop :=
  (∀ (s : State) (rest : List HostEvent), s.inbox = .resetInput :: rest →
    ∃ t, step s = .next t ∧ t.phase = .uninitialized) ∧
  (∀ s t : State, exec .init s = .next t → t.phase = .ready) ∧
  (∀ (off len dlen : Int) (s t : State), exec (.absorb off len dlen) s = .next t → (s.phase = .ready ∨ s.phase = .absorbing) →
    ((0 ≤ off ∧ 0 ≤ len ∧ off + len ≤ dlen) ∧ t.phase = .absorbing) ∨
    (¬ (0 ≤ off ∧ 0 ≤ len ∧ off + len ≤ dlen) ∧ t.phase = s.phase ∧ t.response = some ⟨.error .outOfRange, []⟩)) ∧
  (∀ (i : Instr) (s t : State), i = .final ∨ i = .tfinal → exec i s = .next t → (s.phase = .ready ∨ s.phase = .absorbing) →
    t.phase = .finalized) ∧
  (∀ s t : State, exec .result s = .next t → s.phase = .finalized → t.phase = .finalized) ∧
  (∀ (i : Instr) (s : State), ¬ Admits i s.phase → exec i s = .next { s with response := some ⟨.error .misuse, []⟩ }) ∧
  (∀ (i : Instr) (s t : State), exec i { s with phase := .ready } = .next t →
    ∃ p, exec i { s with phase := .absorbing } = .next { t with phase := p } ∧ (p = t.phase ∨ p = .absorbing ∧ t.phase = .ready))

/-- R25: "`INIT` is the only way back to `Ready`". -/
def Obligations.OnlyInitLeadsToReady : Prop :=
  ∀ s t : State, step s = .next t → s.phase ≠ .ready → t.phase = .ready →
    ∃ c rest, s.inbox = .command c :: rest ∧ decode c.descr = .ok .init

/-- R202: a command is answered by Misuse exactly in the phases that do not admit it, and then nothing changes, so the digest
of a finished computation stays retrievable. -/
def Obligations.MisuseExactlyWhereNotAdmitted : Prop :=
  ∀ (i : Instr) (s : State),
    (¬ Admits i s.phase → exec i s = .next { s with response := some ⟨.error .misuse, []⟩ }) ∧
    (Admits i s.phase → ∀ t, exec i s = .next t → ∀ r, t.response = some r → r.status ≠ .error .misuse) ∧
    (s.phase = .finalized → ∀ t u, exec i s = .next t → (∃ p, t.response = some ⟨.error .misuse, p⟩) →
      exec .result s = .next u → exec .result t = .next u)

/-- R201: OutOfRange is raised by `ABSORB` only, exactly when an operand is negative or the range overruns, and then no byte
of DATA is read and nothing changes. -/
def Obligations.OutOfRangeExactlyWhenTheRangeIsBad : Prop :=
  (∀ (i : Instr) (s t : State) (p : List Byte), exec i s = .next t →
    t.response = some ⟨.error .outOfRange, p⟩ →
    ∃ off len dlen, i = .absorb off len dlen ∧ (off < 0 ∨ len < 0 ∨ off + len > dlen)) ∧
  (∀ (off len dlen : Int) (s : State), (s.phase = .ready ∨ s.phase = .absorbing) →
    (off < 0 ∨ len < 0 ∨ off + len > dlen) → ∀ m : Memory,
    exec (.absorb off len dlen) { s with data := m } =
      .next { s with data := m, response := some ⟨.error .outOfRange, []⟩ })

/-- R204: when several errors apply exactly one is reported: IllegalCommand whatever the phase and the operands, then Misuse
whatever the operands, then OutOfRange. -/
def Obligations.ErrorsHaveAPriority : Prop :=
  ∀ (s : State) (c : Command) (rest : List HostEvent), s.inbox = .command c :: rest →
    (∀ e, decode c.descr = .error e →
      step s = .next { s with inbox := rest, data := c.data, response := some ⟨.error .illegalCommand, []⟩ }) ∧
    (∀ i, decode c.descr = .ok i → ¬ Admits i s.phase →
      step s = .next { s with inbox := rest, data := c.data, response := some ⟨.error .misuse, []⟩ }) ∧
    (∀ off len dlen, decode c.descr = .ok (.absorb off len dlen) → Admits (.absorb off len dlen) s.phase →
      (off < 0 ∨ len < 0 ∨ off + len > dlen) →
      step s = .next { s with inbox := rest, data := c.data, response := some ⟨.error .outOfRange, []⟩ })

/-- R205: a command that ends in an error has no effect but its response, which carries no payload, and has read no byte of
DATA: whatever DATA holds, the outcome is the same. -/
def Obligations.ErrorsChangeNothing : Prop :=
  (∀ (i : Instr) (s t : State) (e : ErrorKind) (p : List Byte), exec i s = .next t →
    t.response = some ⟨.error e, p⟩ →
    p = [] ∧ t = { s with response := t.response } ∧
    ∀ m : Memory, exec i { s with data := m } = .next { t with data := m }) ∧
  (∀ (s : State) (c : Command) (rest : List HostEvent) (e : DecodeError), s.inbox = .command c :: rest →
    decode c.descr = .error e →
    step s = .next { s with inbox := rest, data := c.data, response := some ⟨.error .illegalCommand, []⟩ })

/-- R200: the four outcomes and their codes; every command answers a next state with one of them in its response, and every
presented descriptor is answered; which command raises which. The one exception is the model's own (log 6, `LacksData`): an
`ABSORB` with a byte the host did not supply, outside the spec's domain (U6). -/
def Obligations.EveryCommandEndsInOneOfFourOutcomes : Prop :=
  Status.ok.code = 0x00 ∧ (Status.error .outOfRange).code = 0x01 ∧ (Status.error .misuse).code = 0x02 ∧
  (Status.error .illegalCommand).code = 0x03 ∧ (∀ st : Status, st.code.toNat < 4) ∧
  (∀ (i : Instr) (s : State), ¬ LacksData i s → ∃ t r, exec i s = .next t ∧ t.response = some r ∧
    (r.status = .ok ∨ (r.status = .error .outOfRange ∧ ∃ off len dlen, i = .absorb off len dlen) ∨
      (r.status = .error .misuse ∧ i ≠ .init))) ∧
  (∀ (s : State) (c : Command) (rest : List HostEvent), s.inbox = .command c :: rest →
    (∀ i, decode c.descr = .ok i → ¬ LacksData i { s with inbox := rest, data := c.data }) →
    ∃ t r, step s = .next t ∧ t.response = some r ∧
      (r.status = .error .illegalCommand ↔ ∃ e, decode c.descr = .error e))

/-- R81: every command is answered by a status, one of four codes, and a payload: the HASHSIZE digest bytes when the command
is `RESULT` or `TFINAL` and the status OK; otherwise `PLEN` is 0. The one exception to the first clause is the model's own
(log 6, `LacksData`). -/
def Obligations.PayloadIsTheDigestOrNothing : Prop :=
  Status.ok.code = 0x00 ∧ (Status.error .outOfRange).code = 0x01 ∧ (Status.error .misuse).code = 0x02 ∧
  (Status.error .illegalCommand).code = 0x03 ∧
  (∀ (i : Instr) (s : State), ¬ LacksData i s → ∃ t r, exec i s = .next t ∧ t.response = some r ∧
    ((i = .result ∨ i = .tfinal) ∧ r.status = .ok → r.plen = s.hashSize.bytes ∧ r.payload = digest t) ∧
    (¬ ((i = .result ∨ i = .tfinal) ∧ r.status = .ok) → r.plen = 0)) ∧
  (∀ (s : State) (c : Command) (rest : List HostEvent) (e : DecodeError), s.inbox = .command c :: rest →
    decode c.descr = .error e → ∃ t r, step s = .next t ∧ t.response = some r ∧ r.plen = 0)

/-! ## Invariants -/

/-- The invariant holds in every instance right after power-on (the register values there are the model's choice, log 2). -/
def Obligations.InvariantHoldsAtPowerOn : Prop :=
  State.reset.Inv ∧ ∀ (a : Alg) (h : HashSize), (State.powerOn a h).Inv

/-- Every step keeps the invariant: `POS` below BLOCKSIZE (R27), Ready means an empty message on the IV (R25, R102), Finalized
means `POS` = 0 (R27), responses are sized (R81), DATA is in canonical form. -/
def Obligations.EveryStepKeepsTheInvariant : Prop :=
  ∀ s t : State, s.Inv → step s = .next t → t.Inv

/-- R28: in Ready and Absorbing, `COUNT mod BLOCKSIZE = POS`; every step keeps it, from every state that meets the invariant,
as long as the presented `ABSORB` stays below 2^61 bytes (U3). -/
def Obligations.EveryStepKeepsCountMatchingPos : Prop :=
  ∀ s t : State, s.Inv → s.CountMatchesPos → s.StaysBelowBound → step s = .next t → t.CountMatchesPos

/-! ## Streams and digests (40_block_buffer.md R107, R108) -/

/-- R107: after `INIT` and any sequence of `ABSORB` commands below 2^61 bytes in all, each a window of its own DATA array or
out of range, the state depends only on the concatenation of the delivered bytes: the engine is the IV transformed by the
complete blocks, the buffer holds the rest, `COUNT` is the length. -/
def Obligations.StreamsAreEquivalent : Prop :=
  ∀ (s : State) (items : List (HostEvent × List Byte)) (rest : List HostEvent),
    (∀ it ∈ items, Delivers it.1 it.2) → (messageOf items).length < 2 ^ 61 →
    s.inbox = present .init [] :: (items.map Prod.fst ++ rest) →
    ∃ t : State, Host.Core.run Sys2Proof.core (items.length + 1) s = .next t ∧
      t.alg = s.alg ∧ t.hashSize = s.hashSize ∧ t.inbox = rest ∧ (t.phase = .ready ∨ t.phase = .absorbing) ∧
      (s.alg = .cubehash → t.x = chAbsorbBlocks (completeBlocks 32 (messageOf items)) (chIv s.hashSize)) ∧
      (s.alg = .jh → t.h = jhAbsorbBlocks (completeBlocks 64 (messageOf items)) (jhIv s.hashSize)) ∧
      t.buf = lastBytes s.blockSize (messageOf items) ∧ t.pos = (messageOf items).length % s.blockSize ∧
      t.count.toNat = (messageOf items).length

/-- R108: from any state whatever, `INIT`, any stream of `ABSORB` commands and `TFINAL` answer OK with the digest that the
whole-message function of the algorithm gives for the delivered bytes (41_cubehash.md R139, 42_jh.md R173): HASHSIZE bytes,
a function of ALG, HASHSIZE and the message only, with no residue of what was hashed before. -/
def Obligations.TfinalAnswersTheMessageDigest : Prop :=
  ∀ (s : State) (items : List (HostEvent × List Byte)) (rest : List HostEvent),
    (∀ it ∈ items, Delivers it.1 it.2) → (messageOf items).length < 2 ^ 61 →
    s.inbox = present .init [] :: (items.map Prod.fst ++ present .tfinal [] :: rest) →
    ∃ t : State, Host.Core.run Sys2Proof.core (items.length + 2) s = .next t ∧ t.inbox = rest ∧
      t.phase = .finalized ∧ t.response = some ⟨.ok, messageDigest s.alg s.hashSize (messageOf items)⟩ ∧
      (messageDigest s.alg s.hashSize (messageOf items)).length = s.hashSize.bytes

/-- R230: nothing can read the registers that reset leaves unspecified before `INIT` writes them. Two instances in
Uninitialized with the same construction values, port and response answer alike for ever, whatever `X`, `H`, `BUF`, `POS`,
`COUNT` and DATA hold in each. -/
def Obligations.UnspecifiedResetValuesAreNeverSeen : Prop :=
  ∀ s t : State, s.phase = .uninitialized → t.phase = .uninitialized → s.alg = t.alg → s.hashSize = t.hashSize →
    s.inbox = t.inbox → s.response = t.response →
    ∀ (k : Nat) (s' : State), Host.Core.run Sys2Proof.core k s = .next s' →
      ∃ t', Host.Core.run Sys2Proof.core k t = .next t' ∧ t'.response = s'.response ∧ t'.phase = s'.phase

/-! ## The CubeHash engine (41_cubehash.md) -/

/-- R132: the ten steps of the round are the gather form. -/
def Obligations.RoundIsItsGatherForm : Prop := ∀ x : ChState, chRound x = chRoundGather x

/-- "The round is a bijection on the 1024-bit state" (R131). -/
def Obligations.CubeHashRoundIsABijection : Prop := Function.Bijective chRound

/-- R134: a blank transform is the block transform of the all-zero block. -/
def Obligations.BlankIsTheZeroBlock : Prop :=
  ∀ x : ChState, chBlank x = chBlock (chLoad (List.replicate 32 0)) x ∧ chBlank x = chRound^[16] x

/-- R130: `CH_XORIN` XORs the eight message words into words 0 to 7 and leaves words 8 to 31 untouched. -/
def Obligations.XorinTouchesTheFirstEightWords : Prop :=
  ∀ (w : ChBlockWords) (x : ChState) (i : Nat) (hi : i < 32),
    (∀ h8 : i < 8, (chXorin w x)[i] = x[i] ^^^ w[i]) ∧ (8 ≤ i → (chXorin w x)[i] = x[i])

/-- R136: the table `CH_IV` holds, for every digest size, what `CH_IVGEN` computes. -/
def Obligations.CubeHashIvTableIsIvGen : Prop := ∀ h : HashSize, chIv h = chIvGen h

/-- R56: the CubeHash digest is the first HASHSIZE bytes of the serialised state, words `X[0]` to `X[HASHSIZE/4 - 1]`. -/
def Obligations.CubeHashDigestIsTheFirstBytes : Prop :=
  ∀ (h : HashSize) (x : ChState), chResult h x = (chSerial x).take h.bytes ∧ (chResult h x).length = h.bytes ∧
    chResult h x = (x.toList.take (h.bytes / 4)).flatMap unle32

/-! ## The JH engine (42_jh.md) -/

/-- R162: per lane `JH_SS` is the S-box that the lane's constant bit selects, on both groups. -/
def Obligations.NonlinearLayerIsTwoSBoxes : Prop :=
  ∀ (m : JhPass) (cc0 cc1 : Word64) (k : Nat), k < 64 →
    laneValue (jhSS m cc0 cc1).m0 (jhSS m cc0 cc1).m1 (jhSS m cc0 cc1).m2 (jhSS m cc0 cc1).m3 k =
      (if cc0.getLsbD k then jhS1 else jhS0).getD (laneValue m.m0 m.m1 m.m2 m.m3 k) 0 ∧
    laneValue (jhSS m cc0 cc1).m4 (jhSS m cc0 cc1).m5 (jhSS m cc0 cc1).m6 (jhSS m cc0 cc1).m7 k =
      (if cc1.getLsbD k then jhS1 else jhS0).getD (laneValue m.m4 m.m5 m.m6 m.m7 k) 0

/-- R163: per lane `JH_L` is B' = B + 2·A, A' = A + 2·B' over GF(2^4) modulo x^4 + x + 1. -/
def Obligations.LinearLayerIsTheMdsMap : Prop :=
  ∀ (m : JhPass) (k : Nat), k < 64 →
    (laneValue (jhL m).m0 (jhL m).m1 (jhL m).m2 (jhL m).m3 k, laneValue (jhL m).m4 (jhL m).m5 (jhL m).m6 (jhL m).m7 k) =
      jhMds (laneValue m.m0 m.m1 m.m2 m.m3 k) (laneValue m.m4 m.m5 m.m6 m.m7 k)

/-- R164: bit b of `JH_SWAP(v, n)` is bit (b xor n) of v; each swap is an involution; distance 32 is a rotation by 32. -/
def Obligations.SwapExchangesNeighbourGroups : Prop :=
  (∀ (v : Word64) (r k : Nat), r < 6 → k < 64 → (jhSwap v (2 ^ r)).getLsbD k = v.getLsbD (k ^^^ 2 ^ r)) ∧
  (∀ (v : Word64) (r : Nat), r < 6 → jhSwap (jhSwap v (2 ^ r)) (2 ^ r) = v) ∧
  (∀ v : Word64, jhSwap v 32 = v.rotateLeft 32)

/-- R165: `JH_WSWAP` exchanges the two words of every odd row and leaves the even rows. -/
def Obligations.WordSwapExchangesOddRows : Prop :=
  ∀ s : JhState, (∀ j : Fin 4, (jhWSwap s)[4 * j.val + 2] = s[4 * j.val + 3] ∧ (jhWSwap s)[4 * j.val + 3] = s[4 * j.val + 2] ∧
    (jhWSwap s)[4 * j.val] = s[4 * j.val] ∧ (jhWSwap s)[4 * j.val + 1] = s[4 * j.val + 1])

/-- R167: `JH_E8` is the 42 rounds in order, and a bijection of the 1024-bit state, whatever the round constants. -/
def Obligations.E8IsABijection : Prop :=
  ∀ rc : List Word64, (∀ s, jhE8 rc s = (List.range 42).foldl (fun s R => jhRound rc R s) s) ∧ Function.Bijective (jhE8 rc)

/-- R161, R168, R169: the message goes into the first eight words before E8 and into the second eight after, so for the
all-zero block the block transform is E8. -/
def Obligations.JhBlockXorsBeforeAndAfter : Prop :=
  ∀ (rc : List Word64) (m : JhBlockWords) (s : JhState),
    (∀ (i : Nat) (hi : i < 8), (jhXorin m s)[i] = s[i] ^^^ m[i] ∧ (jhXorin m s)[8 + i] = s[8 + i]) ∧
    (∀ (i : Nat) (hi : i < 8), (jhXorout m s)[i] = s[i] ∧ (jhXorout m s)[8 + i] = s[8 + i] ^^^ m[i]) ∧
    jhBlock rc m s = jhXorout m (jhE8 rc (jhXorin m s)) ∧ jhBlock rc (Vector.replicate 8 0) s = jhE8 rc s

/-- R193: evaluating the derivation reproduces the table `JH_IV`. -/
def Obligations.JhIvTableIsItsDerivation : Prop := ∀ h : HashSize, jhIv h = jhIvGen jhRc h

/-- R194: generating the round constants reproduces the table `JH_RC`. -/
def Obligations.JhRoundConstantsAreGenerated : Prop := jhRc = jhRcGen

/-- R58: the JH digest is the last HASHSIZE bytes of the serialised state. -/
def Obligations.JhDigestIsTheLastBytes : Prop :=
  ∀ (h : HashSize) (s : JhState), jhResult h s = (jhSerial s).drop (128 - h.bytes) ∧ (jhResult h s).length = h.bytes

/-! ## Byte order and padding (20_memory.md R54, R55, R57, R59) -/

/-- R54, R55: a block's words are little-endian. -/
def Obligations.BlocksLoadLittleEndian : Prop :=
  (∀ (block : List Byte) (i : Fin 8), block.length = 32 → (chLoad block)[i.val].toNat =
    (List.range 4).foldl (fun n j => n + (block.getD (4 * i + j) 0).toNat * 256 ^ j) 0) ∧
  (∀ (block : List Byte) (i : Fin 8), block.length = 64 → (jhLoad block)[i.val].toNat =
    (List.range 8).foldl (fun n j => n + (block.getD (8 * i + j) 0).toNat * 256 ^ j) 0)

/-- R57: the CubeHash pad string is `0x80` and zeros to the end of the block, and once the block is loaded the `0x80` is
byte p mod 4 of word p div 4. -/
def Obligations.CubeHashPadByteLandsInItsWord : Prop :=
  ∀ pending : List Byte, (hp : pending.length < 32) →
    chPad pending.length = (0x80 : Byte) :: List.replicate (32 - pending.length - 1) 0 ∧
    (chLoad (pending ++ chPad pending.length))[pending.length / 4].extractLsb' (8 * (pending.length % 4)) 8 = 0x80

/-- R59, R171: the JH pad string starts with `0x80` and ends on a block boundary, 64 to 127 bytes on; its last 8 bytes are
`COUNT * 8`, most significant byte first, so in `M[7]` of the last block it stands byte-reversed. -/
def Obligations.JhLengthFieldIsBigEndian : Prop :=
  ∀ (pending : List Byte) (count : Word64), pending.length < 64 →
    (jhPad pending.length count).head? = some 0x80 ∧ (pending ++ jhPad pending.length count).length % 64 = 0 ∧
    64 ≤ (jhPad pending.length count).length ∧ (jhPad pending.length count).length < 128 ∧
    ∀ j, j < 8 →
      (jhPad pending.length count)[(jhPad pending.length count).length - 8 + j]? =
        some ((count * 8).extractLsb' (8 * (7 - j)) 8) ∧
      ∀ k, k < 8 →
        (jhLoad ((pending ++ jhPad pending.length count).drop
          ((pending ++ jhPad pending.length count).length - 64)))[7].getLsbD (8 * j + k) =
            (count * 8).getLsbD (8 * (7 - j) + k)
end

