-- ==== Sys2Proof/Laws/State.lean ====
section
/-! SUPPORT. One lemma for each field of State under each named update of it, true by rfl. -/

namespace Sys2Proof.Machine

/-! ## respondOk -/

@[simp] theorem State.respondOk_alg (s : State) (p : List Byte) : (s.respondOk p).alg = s.alg := rfl
@[simp] theorem State.respondOk_hashSize (s : State) (p : List Byte) : (s.respondOk p).hashSize = s.hashSize := rfl
@[simp] theorem State.respondOk_x (s : State) (p : List Byte) : (s.respondOk p).x = s.x := rfl
@[simp] theorem State.respondOk_h (s : State) (p : List Byte) : (s.respondOk p).h = s.h := rfl
@[simp] theorem State.respondOk_buf (s : State) (p : List Byte) : (s.respondOk p).buf = s.buf := rfl
@[simp] theorem State.respondOk_count (s : State) (p : List Byte) : (s.respondOk p).count = s.count := rfl
@[simp] theorem State.respondOk_phase (s : State) (p : List Byte) : (s.respondOk p).phase = s.phase := rfl
@[simp] theorem State.respondOk_data (s : State) (p : List Byte) : (s.respondOk p).data = s.data := rfl
@[simp] theorem State.respondOk_response (s : State) (p : List Byte) : (s.respondOk p).response = some ⟨.ok, p⟩ := rfl
@[simp] theorem State.respondOk_inbox (s : State) (p : List Byte) : (s.respondOk p).inbox = s.inbox := rfl
@[simp] theorem State.respondOk_resets (s : State) (p : List Byte) : (s.respondOk p).resets = s.resets := rfl
@[simp] theorem State.respondOk_pos (s : State) (p : List Byte) : (s.respondOk p).pos = s.pos := rfl
@[simp] theorem State.respondOk_blockSize (s : State) (p : List Byte) : (s.respondOk p).blockSize = s.blockSize := rfl

/-! ## raise -/

@[simp] theorem State.raise_alg (s : State) (e : ErrorKind) : (s.raise e).alg = s.alg := rfl
@[simp] theorem State.raise_hashSize (s : State) (e : ErrorKind) : (s.raise e).hashSize = s.hashSize := rfl
@[simp] theorem State.raise_x (s : State) (e : ErrorKind) : (s.raise e).x = s.x := rfl
@[simp] theorem State.raise_h (s : State) (e : ErrorKind) : (s.raise e).h = s.h := rfl
@[simp] theorem State.raise_buf (s : State) (e : ErrorKind) : (s.raise e).buf = s.buf := rfl
@[simp] theorem State.raise_count (s : State) (e : ErrorKind) : (s.raise e).count = s.count := rfl
@[simp] theorem State.raise_phase (s : State) (e : ErrorKind) : (s.raise e).phase = s.phase := rfl
@[simp] theorem State.raise_data (s : State) (e : ErrorKind) : (s.raise e).data = s.data := rfl
@[simp] theorem State.raise_response (s : State) (e : ErrorKind) : (s.raise e).response = some ⟨.error e, []⟩ := rfl
@[simp] theorem State.raise_inbox (s : State) (e : ErrorKind) : (s.raise e).inbox = s.inbox := rfl
@[simp] theorem State.raise_resets (s : State) (e : ErrorKind) : (s.raise e).resets = s.resets := rfl
@[simp] theorem State.raise_pos (s : State) (e : ErrorKind) : (s.raise e).pos = s.pos := rfl
@[simp] theorem State.raise_blockSize (s : State) (e : ErrorKind) : (s.raise e).blockSize = s.blockSize := rfl

/-! ## accept -/

@[simp] theorem State.accept_alg (s : State) (c : Command) (rest : List HostEvent) : (accept s c rest).alg = s.alg := rfl
@[simp] theorem State.accept_hashSize (s : State) (c : Command) (rest : List HostEvent) : (accept s c rest).hashSize = s.hashSize := rfl
@[simp] theorem State.accept_x (s : State) (c : Command) (rest : List HostEvent) : (accept s c rest).x = s.x := rfl
@[simp] theorem State.accept_h (s : State) (c : Command) (rest : List HostEvent) : (accept s c rest).h = s.h := rfl
@[simp] theorem State.accept_buf (s : State) (c : Command) (rest : List HostEvent) : (accept s c rest).buf = s.buf := rfl
@[simp] theorem State.accept_count (s : State) (c : Command) (rest : List HostEvent) : (accept s c rest).count = s.count := rfl
@[simp] theorem State.accept_phase (s : State) (c : Command) (rest : List HostEvent) : (accept s c rest).phase = s.phase := rfl
@[simp] theorem State.accept_data (s : State) (c : Command) (rest : List HostEvent) : (accept s c rest).data = c.data := rfl
@[simp] theorem State.accept_response (s : State) (c : Command) (rest : List HostEvent) : (accept s c rest).response = s.response := rfl
@[simp] theorem State.accept_inbox (s : State) (c : Command) (rest : List HostEvent) : (accept s c rest).inbox = rest := rfl
@[simp] theorem State.accept_resets (s : State) (c : Command) (rest : List HostEvent) : (accept s c rest).resets = s.resets := rfl
@[simp] theorem State.accept_pos (s : State) (c : Command) (rest : List HostEvent) : (accept s c rest).pos = s.pos := rfl
@[simp] theorem State.accept_blockSize (s : State) (c : Command) (rest : List HostEvent) : (accept s c rest).blockSize = s.blockSize := rfl

/-! ## acceptReset -/

@[simp] theorem State.acceptReset_alg (s : State) (rest : List HostEvent) : (acceptReset s rest).alg = s.alg := rfl
@[simp] theorem State.acceptReset_hashSize (s : State) (rest : List HostEvent) : (acceptReset s rest).hashSize = s.hashSize := rfl
@[simp] theorem State.acceptReset_x (s : State) (rest : List HostEvent) : (acceptReset s rest).x = if s.alg = .cubehash then Config.resetX s.resets else s.x := rfl
@[simp] theorem State.acceptReset_h (s : State) (rest : List HostEvent) : (acceptReset s rest).h = if s.alg = .jh then Config.resetH s.resets else s.h := rfl
@[simp] theorem State.acceptReset_buf (s : State) (rest : List HostEvent) : (acceptReset s rest).buf = (Config.resetBuf s.resets).take (s.blockSize - 1) := rfl
@[simp] theorem State.acceptReset_count (s : State) (rest : List HostEvent) : (acceptReset s rest).count = Config.resetCount s.resets := rfl
@[simp] theorem State.acceptReset_phase (s : State) (rest : List HostEvent) : (acceptReset s rest).phase = .uninitialized := rfl
@[simp] theorem State.acceptReset_data (s : State) (rest : List HostEvent) : (acceptReset s rest).data = s.data := rfl
@[simp] theorem State.acceptReset_response (s : State) (rest : List HostEvent) : (acceptReset s rest).response = none := rfl
@[simp] theorem State.acceptReset_inbox (s : State) (rest : List HostEvent) : (acceptReset s rest).inbox = rest := rfl
@[simp] theorem State.acceptReset_resets (s : State) (rest : List HostEvent) : (acceptReset s rest).resets = s.resets + 1 := rfl
@[simp] theorem State.acceptReset_blockSize (s : State) (rest : List HostEvent) : (acceptReset s rest).blockSize = s.blockSize := rfl

/-! ## presentDescriptor -/

@[simp] theorem State.presentDescriptor_alg (s : State) (d : Descriptor) : (presentDescriptor s d).alg = s.alg := rfl
@[simp] theorem State.presentDescriptor_hashSize (s : State) (d : Descriptor) : (presentDescriptor s d).hashSize = s.hashSize := rfl
@[simp] theorem State.presentDescriptor_x (s : State) (d : Descriptor) : (presentDescriptor s d).x = s.x := rfl
@[simp] theorem State.presentDescriptor_h (s : State) (d : Descriptor) : (presentDescriptor s d).h = s.h := rfl
@[simp] theorem State.presentDescriptor_buf (s : State) (d : Descriptor) : (presentDescriptor s d).buf = s.buf := rfl
@[simp] theorem State.presentDescriptor_count (s : State) (d : Descriptor) : (presentDescriptor s d).count = s.count := rfl
@[simp] theorem State.presentDescriptor_phase (s : State) (d : Descriptor) : (presentDescriptor s d).phase = s.phase := rfl
@[simp] theorem State.presentDescriptor_data (s : State) (d : Descriptor) : (presentDescriptor s d).data = s.data := rfl
@[simp] theorem State.presentDescriptor_response (s : State) (d : Descriptor) : (presentDescriptor s d).response = s.response := rfl
@[simp] theorem State.presentDescriptor_inbox (s : State) (d : Descriptor) : (presentDescriptor s d).inbox = .command ⟨d, s.data⟩ :: s.inbox := rfl
@[simp] theorem State.presentDescriptor_resets (s : State) (d : Descriptor) : (presentDescriptor s d).resets = s.resets := rfl
@[simp] theorem State.presentDescriptor_pos (s : State) (d : Descriptor) : (presentDescriptor s d).pos = s.pos := rfl
@[simp] theorem State.presentDescriptor_blockSize (s : State) (d : Descriptor) : (presentDescriptor s d).blockSize = s.blockSize := rfl

/-! ## idle -/

@[simp] theorem State.idle_eq (s : State) : idle s = s := rfl

/-! ## Construction -/

@[simp] theorem State.powerOn_phase (a : Alg) (h : HashSize) : (State.powerOn a h).phase = .uninitialized := rfl
@[simp] theorem State.powerOn_alg (a : Alg) (h : HashSize) : (State.powerOn a h).alg = a := rfl
@[simp] theorem State.powerOn_hashSize (a : Alg) (h : HashSize) : (State.powerOn a h).hashSize = h := rfl

end Sys2Proof.Machine
end

