-- ==== Sys2Proof/Laws/Buffer.lean ====
section
/-! SUPPORT. What pushing bytes through the Pending Buffer does, said once: the engine absorbs the complete blocks of the
pending bytes and the new ones, in order, and what is left stays pending (40_block_buffer.md R100, R107). -/

namespace Sys2Proof.Machine

/-! ## Cutting a message into blocks -/

theorem completeBlocks_short {n : Nat} {m : List Byte} (h : m.length < n) : completeBlocks n m = [] := by
  simp [completeBlocks, Nat.div_eq_of_lt h]

theorem lastBytes_short {n : Nat} {m : List Byte} (h : m.length < n) : lastBytes n m = m := by
  simp [lastBytes, Nat.div_eq_of_lt h]

theorem completeBlocks_append {n : Nat} (hn : 0 < n) {b : List Byte} (hb : b.length = n) (m : List Byte) :
    completeBlocks n (b ++ m) = b :: completeBlocks n m := by
  subst hb
  have hdiv : (b ++ m).length / b.length = m.length / b.length + 1 := by
    rw [List.length_append, Nat.add_div_left _ hn]
  rw [completeBlocks, hdiv, List.range_succ_eq_map]
  simp only [List.map_cons, List.map_map, completeBlocks]
  congr 1
  · simp [blockOf]
  · refine List.map_congr_left fun k _ => ?_
    simp only [Function.comp_apply, blockOf]
    rw [Nat.succ_eq_add_one, Nat.mul_succ, Nat.add_comm, ← List.drop_drop, List.drop_left]

theorem lastBytes_append {n : Nat} (hn : 0 < n) {b : List Byte} (hb : b.length = n) (m : List Byte) :
    lastBytes n (b ++ m) = lastBytes n m := by
  subst hb
  rw [lastBytes, List.length_append, Nat.add_div_left _ hn, Nat.mul_succ, Nat.add_comm, ← List.drop_drop]
  simp [lastBytes]

theorem completeBlocks_single {n : Nat} (hn : 0 < n) {b : List Byte} (hb : b.length = n) : completeBlocks n b = [b] := by
  have := completeBlocks_append hn hb []
  rwa [List.append_nil, completeBlocks_short (m := []) (by simpa using hn)] at this

theorem lastBytes_single {n : Nat} (hn : 0 < n) {b : List Byte} (hb : b.length = n) : lastBytes n b = [] := by
  have := lastBytes_append hn hb []
  rwa [List.append_nil, lastBytes_short (m := []) (by simpa using hn)] at this

theorem length_lastBytes (n : Nat) (m : List Byte) : (lastBytes n m).length = m.length % n := by
  rw [lastBytes, List.length_drop]
  have := Nat.div_add_mod m.length n
  omega

theorem length_completeBlocks (n : Nat) (m : List Byte) : (completeBlocks n m).length = m.length / n := by
  simp [completeBlocks]

/-- A message is its complete blocks and then its last bytes, piece by piece. -/
theorem completeBlocks_split {n : Nat} (hn : 0 < n) (a b : List Byte) :
    completeBlocks n (a ++ b) = completeBlocks n a ++ completeBlocks n (lastBytes n a ++ b) ∧
    lastBytes n (a ++ b) = lastBytes n (lastBytes n a ++ b) := by
  induction hk : a.length / n generalizing a with
  | zero =>
    have h : a.length < n := by
      rcases Nat.div_eq_zero_iff.mp hk with h | h
      · omega
      · exact h
    simp [completeBlocks_short h, lastBytes_short h]
  | succ k ih =>
    have hlen : n ≤ a.length := by
      by_contra h
      rw [Nat.div_eq_of_lt (by omega)] at hk
      omega
    obtain ⟨c, d, rfl, hc⟩ : ∃ c d, a = c ++ d ∧ c.length = n :=
      ⟨a.take n, a.drop n, (List.take_append_drop n a).symm, by simp [hlen]⟩
    have hd : d.length / n = k := by
      rw [List.length_append, hc, Nat.add_div_left _ hn] at hk
      omega
    obtain ⟨h1, h2⟩ := ih d hd
    rw [List.append_assoc, completeBlocks_append hn hc, completeBlocks_append hn hc, lastBytes_append hn hc,
      lastBytes_append hn hc, h1, h2]
    exact ⟨rfl, rfl⟩

/-! ## Absorbing blocks -/

@[simp] theorem chAbsorbBlocks_nil (x : ChState) : chAbsorbBlocks [] x = x := rfl

@[simp] theorem chAbsorbBlocks_cons (b : List Byte) (bs : List (List Byte)) (x : ChState) :
    chAbsorbBlocks (b :: bs) x = chAbsorbBlocks bs (chBlock (chLoad b) x) := by
  simp only [chAbsorbBlocks, List.foldl_cons]

@[simp] theorem chAbsorbBlocks_append (as bs : List (List Byte)) (x : ChState) :
    chAbsorbBlocks (as ++ bs) x = chAbsorbBlocks bs (chAbsorbBlocks as x) := by
  simp [chAbsorbBlocks, List.foldl_append]

@[simp] theorem jhAbsorbBlocks_nil (s : JhState) : jhAbsorbBlocks [] s = s := rfl

@[simp] theorem jhAbsorbBlocks_cons (b : List Byte) (bs : List (List Byte)) (s : JhState) :
    jhAbsorbBlocks (b :: bs) s = jhAbsorbBlocks bs (jhBlock jhRc (jhLoad b) s) := by
  simp only [jhAbsorbBlocks, List.foldl_cons]

@[simp] theorem jhAbsorbBlocks_append (as bs : List (List Byte)) (s : JhState) :
    jhAbsorbBlocks (as ++ bs) s = jhAbsorbBlocks bs (jhAbsorbBlocks as s) := by
  simp [jhAbsorbBlocks, List.foldl_append]

/-! ## Pushing bytes -/

@[simp] theorem pushAll_nil (s : State) : pushAll s [] = s := rfl

@[simp] theorem pushAll_cons (s : State) (b : Byte) (bs : List Byte) :
    pushAll s (b :: bs) = pushAll (bufPush s b) bs := rfl

theorem pushAll_append (s : State) (a b : List Byte) : pushAll s (a ++ b) = pushAll (pushAll s a) b := by
  simp [pushAll, List.foldl_append]

/-- `BUF_PUSH` that does not fill the buffer. -/
theorem bufPush_short {s : State} (b : Byte) (h : s.pos + 1 ≠ s.blockSize) :
    bufPush s b = { s with buf := s.buf ++ [b] } := by
  simp only [bufPush, State.pos, State.blockSize, List.length_append, List.length_singleton] at *
  rw [if_neg h]

/-- `BUF_PUSH` that fills the buffer of a CubeHash instance. -/
theorem bufPush_full_cubehash {s : State} (b : Byte) (ha : s.alg = .cubehash) (h : s.pos + 1 = 32) :
    bufPush s b = { s with x := chBlock (chLoad (s.buf ++ [b])) s.x, buf := [] } := by
  simp only [bufPush, State.pos, State.blockSize, List.length_append, List.length_singleton, ha] at *
  rw [if_pos (by simpa [Alg.blockSize] using h)]
  simp [transform]

/-- `BUF_PUSH` that fills the buffer of a JH instance. -/
theorem bufPush_full_jh {s : State} (b : Byte) (ha : s.alg = .jh) (h : s.pos + 1 = 64) :
    bufPush s b = { s with h := jhBlock jhRc (jhLoad (s.buf ++ [b])) s.h, buf := [] } := by
  simp only [bufPush, State.pos, State.blockSize, List.length_append, List.length_singleton, ha] at *
  rw [if_pos (by simpa [Alg.blockSize] using h)]
  simp [transform]

/-- Pushing bytes into a CubeHash instance. -/
theorem pushAll_cubehash (bs : List Byte) : ∀ {s : State}, s.alg = .cubehash → s.pos < 32 →
    pushAll s bs = { s with x := chAbsorbBlocks (completeBlocks 32 (s.buf ++ bs)) s.x, buf := lastBytes 32 (s.buf ++ bs) } := by
  induction bs with
  | nil =>
    intro s _ hp
    rw [pushAll_nil, List.append_nil, completeBlocks_short hp, lastBytes_short hp]
    simp
  | cons b bs ih =>
    intro s ha hp
    rw [pushAll_cons]
    by_cases h : s.pos + 1 = 32
    · have hlen : (s.buf ++ [b]).length = 32 := by simpa [State.pos] using h
      rw [bufPush_full_cubehash b ha h, ih (by exact ha) (by simp [State.pos])]
      rw [show s.buf ++ b :: bs = (s.buf ++ [b]) ++ bs by simp, completeBlocks_append (by omega) hlen,
        lastBytes_append (by omega) hlen]
      simp
    · have hne : s.pos + 1 ≠ s.blockSize := by simpa [State.blockSize, ha, Alg.blockSize] using h
      rw [bufPush_short b hne, ih (by exact ha) (by simp [State.pos] at hp h ⊢; omega)]
      simp

/-- Pushing bytes into a JH instance. -/
theorem pushAll_jh (bs : List Byte) : ∀ {s : State}, s.alg = .jh → s.pos < 64 →
    pushAll s bs = { s with h := jhAbsorbBlocks (completeBlocks 64 (s.buf ++ bs)) s.h, buf := lastBytes 64 (s.buf ++ bs) } := by
  induction bs with
  | nil =>
    intro s _ hp
    rw [pushAll_nil, List.append_nil, completeBlocks_short hp, lastBytes_short hp]
    simp
  | cons b bs ih =>
    intro s ha hp
    rw [pushAll_cons]
    by_cases h : s.pos + 1 = 64
    · have hlen : (s.buf ++ [b]).length = 64 := by simpa [State.pos] using h
      rw [bufPush_full_jh b ha h, ih (by exact ha) (by simp [State.pos])]
      rw [show s.buf ++ b :: bs = (s.buf ++ [b]) ++ bs by simp, completeBlocks_append (by omega) hlen,
        lastBytes_append (by omega) hlen]
      simp
    · have hne : s.pos + 1 ≠ s.blockSize := by simpa [State.blockSize, ha, Alg.blockSize] using h
      rw [bufPush_short b hne, ih (by exact ha) (by simp [State.pos] at hp h ⊢; omega)]
      simp

/-! ## What pushing leaves alone, from any state -/

/-- `BUF_PUSH` writes the active engine's state and the buffer, and nothing else. -/
theorem bufPush_frame (s : State) (b : Byte) : ∃ x h buf,
    bufPush s b = { s with x := x, h := h, buf := buf } ∧ (s.alg = .jh → x = s.x) ∧ (s.alg = .cubehash → h = s.h) := by
  unfold bufPush
  dsimp only
  split
  · unfold transform
    cases hs : s.alg <;> simp only [] <;> exact ⟨_, _, _, rfl, by simp, by simp⟩
  · exact ⟨s.x, s.h, _, rfl, fun _ => rfl, fun _ => rfl⟩

/-- The same for any number of bytes. -/
theorem pushAll_frame (bs : List Byte) : ∀ s : State, ∃ x h buf,
    pushAll s bs = { s with x := x, h := h, buf := buf } ∧ (s.alg = .jh → x = s.x) ∧ (s.alg = .cubehash → h = s.h) := by
  induction bs with
  | nil => intro s; exact ⟨s.x, s.h, s.buf, rfl, fun _ => rfl, fun _ => rfl⟩
  | cons b bs ih =>
    intro s
    obtain ⟨x, h, buf, e, hx, hh⟩ := bufPush_frame s b
    obtain ⟨x', h', buf', e', hx', hh'⟩ := ih (bufPush s b)
    refine ⟨x', h', buf', ?_, fun ha => ?_, fun ha => ?_⟩
    · rw [pushAll_cons, e', e]
    · rw [hx' (by rw [e]; exact ha), e]; exact hx ha
    · rw [hh' (by rw [e]; exact ha), e]; exact hh ha

@[simp] theorem pushAll_alg (s : State) (bs : List Byte) : (pushAll s bs).alg = s.alg := by
  obtain ⟨_, _, _, e, -⟩ := pushAll_frame bs s; rw [e]

@[simp] theorem pushAll_hashSize (s : State) (bs : List Byte) : (pushAll s bs).hashSize = s.hashSize := by
  obtain ⟨_, _, _, e, -⟩ := pushAll_frame bs s; rw [e]

@[simp] theorem pushAll_count (s : State) (bs : List Byte) : (pushAll s bs).count = s.count := by
  obtain ⟨_, _, _, e, -⟩ := pushAll_frame bs s; rw [e]

@[simp] theorem pushAll_phase (s : State) (bs : List Byte) : (pushAll s bs).phase = s.phase := by
  obtain ⟨_, _, _, e, -⟩ := pushAll_frame bs s; rw [e]

@[simp] theorem pushAll_data (s : State) (bs : List Byte) : (pushAll s bs).data = s.data := by
  obtain ⟨_, _, _, e, -⟩ := pushAll_frame bs s; rw [e]

@[simp] theorem pushAll_response (s : State) (bs : List Byte) : (pushAll s bs).response = s.response := by
  obtain ⟨_, _, _, e, -⟩ := pushAll_frame bs s; rw [e]

@[simp] theorem pushAll_inbox (s : State) (bs : List Byte) : (pushAll s bs).inbox = s.inbox := by
  obtain ⟨_, _, _, e, -⟩ := pushAll_frame bs s; rw [e]

@[simp] theorem pushAll_resets (s : State) (bs : List Byte) : (pushAll s bs).resets = s.resets := by
  obtain ⟨_, _, _, e, -⟩ := pushAll_frame bs s; rw [e]

/-- The pending bytes after pushing, for either algorithm. -/
theorem pushAll_buf {s : State} (bs : List Byte) (hp : s.pos < s.blockSize) :
    (pushAll s bs).buf = lastBytes s.blockSize (s.buf ++ bs) := by
  cases ha : s.alg with
  | cubehash =>
    have hb : s.blockSize = 32 := by simp [State.blockSize, ha, Alg.blockSize]
    rw [hb] at hp ⊢
    rw [pushAll_cubehash bs ha hp]
  | jh =>
    have hb : s.blockSize = 64 := by simp [State.blockSize, ha, Alg.blockSize]
    rw [hb] at hp ⊢
    rw [pushAll_jh bs ha hp]

theorem blockSize_pos (a : Alg) : 0 < a.blockSize := by cases a <;> decide

/-! ## The pad strings -/

@[simp] theorem length_chPad {p : Nat} (h : p < 32) : (chPad p).length = 32 - p := by
  simp [chPad]
  omega

@[simp] theorem length_unbe64 (w : Word64) : (unbe64 w).length = 8 := rfl

theorem length_jhPad {p : Nat} (h : p < 64) (c : Word64) : (jhPad p c).length = jhPadLength p := by
  simp [jhPad, jhPadLength]
  split <;> omega

/-- The JH pad string from the start of a block: one block. -/
theorem jhPad_zero (c : Word64) : jhPad 0 c = (0x80 : Byte) :: (List.replicate 55 0 ++ unbe64 (jhBitLength c)) := rfl

/-- The JH pad string from inside a block: the rest of the block, then a full block. -/
theorem jhPad_pos {p : Nat} (h0 : 0 < p) (h : p < 64) (c : Word64) :
    jhPad p c = ((0x80 : Byte) :: List.replicate (63 - p) 0) ++ (List.replicate 56 0 ++ unbe64 (jhBitLength c)) := by
  rw [jhPad, jhPadLength, if_neg (by omega), show 128 - p - 9 = (63 - p) + 56 by omega, ← List.replicate_append_replicate]
  simp

end Sys2Proof.Machine
end

