-- ==== Sys2Proof/Laws/Bytes.lean ====
section
/-! SUPPORT. The byte-order primitives bit by bit (00_scope.md R13): bit 8·j + k of a little-endian word is bit k of its
byte j. -/

namespace Sys2Proof.Machine

/-- Bit k of a byte put below the rest of a word. -/
theorem getLsbD_append_low {n : Nat} (rest : BitVec n) (b : Byte) {k : Nat} (hk : k < 8) :
    (rest ++ b).getLsbD k = b.getLsbD k := by
  rw [BitVec.getLsbD_append, if_pos hk]

/-- Bit 8 + k of a word with a byte put below it. -/
theorem getLsbD_append_high {n : Nat} (rest : BitVec n) (b : Byte) (k : Nat) :
    (rest ++ b).getLsbD (8 + k) = rest.getLsbD k := by
  rw [BitVec.getLsbD_append, if_neg (by omega), Nat.add_sub_cancel_left]

theorem getLsbD_le32 (b0 b1 b2 b3 : Byte) {j k : Nat} (hj : j < 4) (hk : k < 8) :
    (le32 b0 b1 b2 b3).getLsbD (8 * j + k) = ([b0, b1, b2, b3].getD j 0).getLsbD k := by
  unfold le32
  match j, hj with
  | 0, _ => rw [Nat.mul_zero, Nat.zero_add, getLsbD_append_low _ _ hk]; rfl
  | 1, _ => rw [show 8 * 1 + k = 8 + k by omega, getLsbD_append_high, getLsbD_append_low _ _ hk]; rfl
  | 2, _ =>
    rw [show 8 * 2 + k = 8 + (8 + k) by omega]
    iterate 2 rw [getLsbD_append_high]
    rw [getLsbD_append_low _ _ hk]
    rfl
  | 3, _ =>
    rw [show 8 * 3 + k = 8 + (8 + (8 + k)) by omega]
    iterate 3 rw [getLsbD_append_high]
    rfl

theorem getLsbD_le64 (b0 b1 b2 b3 b4 b5 b6 b7 : Byte) {j k : Nat} (hj : j < 8) (hk : k < 8) :
    (le64 b0 b1 b2 b3 b4 b5 b6 b7).getLsbD (8 * j + k) =
      ([b0, b1, b2, b3, b4, b5, b6, b7].getD j 0).getLsbD k := by
  unfold le64
  match j, hj with
  | 0, _ => rw [Nat.mul_zero, Nat.zero_add, getLsbD_append_low _ _ hk]; rfl
  | 1, _ => rw [show 8 * 1 + k = 8 + k by omega, getLsbD_append_high, getLsbD_append_low _ _ hk]; rfl
  | 2, _ =>
    rw [show 8 * 2 + k = 8 + (8 + k) by omega]
    iterate 2 rw [getLsbD_append_high]
    rw [getLsbD_append_low _ _ hk]
    rfl
  | 3, _ =>
    rw [show 8 * 3 + k = 8 + (8 + (8 + k)) by omega]
    iterate 3 rw [getLsbD_append_high]
    rw [getLsbD_append_low _ _ hk]
    rfl
  | 4, _ =>
    rw [show 8 * 4 + k = 8 + (8 + (8 + (8 + k))) by omega]
    iterate 4 rw [getLsbD_append_high]
    rw [getLsbD_append_low _ _ hk]
    rfl
  | 5, _ =>
    rw [show 8 * 5 + k = 8 + (8 + (8 + (8 + (8 + k)))) by omega]
    iterate 5 rw [getLsbD_append_high]
    rw [getLsbD_append_low _ _ hk]
    rfl
  | 6, _ =>
    rw [show 8 * 6 + k = 8 + (8 + (8 + (8 + (8 + (8 + k))))) by omega]
    iterate 6 rw [getLsbD_append_high]
    rw [getLsbD_append_low _ _ hk]
    rfl
  | 7, _ =>
    rw [show 8 * 7 + k = 8 + (8 + (8 + (8 + (8 + (8 + (8 + k)))))) by omega]
    iterate 7 rw [getLsbD_append_high]
    rfl

/-- Byte j of a little-endian word of four bytes. -/
theorem extractLsb'_le32 (b0 b1 b2 b3 : Byte) {j : Nat} (hj : j < 4) :
    (le32 b0 b1 b2 b3).extractLsb' (8 * j) 8 = [b0, b1, b2, b3].getD j 0 := by
  apply BitVec.eq_of_getLsbD_eq
  intro k hk
  rw [BitVec.getLsbD_extractLsb', getLsbD_le32 _ _ _ _ hj hk]
  simp [hk]

/-- Byte j of a little-endian word of eight bytes. -/
theorem extractLsb'_le64 (b0 b1 b2 b3 b4 b5 b6 b7 : Byte) {j : Nat} (hj : j < 8) :
    (le64 b0 b1 b2 b3 b4 b5 b6 b7).extractLsb' (8 * j) 8 = [b0, b1, b2, b3, b4, b5, b6, b7].getD j 0 := by
  apply BitVec.eq_of_getLsbD_eq
  intro k hk
  rw [BitVec.getLsbD_extractLsb', getLsbD_le64 _ _ _ _ _ _ _ _ hj hk]
  simp [hk]

/-- The four bytes of a word, least significant first. -/
theorem getD_unle32 (w : Word32) {j : Nat} (hj : j < 4) : (unle32 w).getD j 0 = w.extractLsb' (8 * j) 8 := by
  interval_cases j <;> rfl

/-- The eight bytes of a word, least significant first. -/
theorem getD_unle64 (w : Word64) {j : Nat} (hj : j < 8) : (unle64 w).getD j 0 = w.extractLsb' (8 * j) 8 := by
  interval_cases j <;> rfl

/-- The eight bytes of a word, most significant first. -/
theorem getD_unbe64 (w : Word64) {j : Nat} (hj : j < 8) : (unbe64 w).getD j 0 = w.extractLsb' (8 * (7 - j)) 8 := by
  interval_cases j <;> rfl

end Sys2Proof.Machine
end

