-- ==== Sys2Proof/Laws/Decode.lean ====
section
/-! SUPPORT. The fields of an encoded descriptor, a descriptor as the concatenation of its fields, and the inversion of the
decoder. -/

namespace Sys2Proof

/-! ## The fields of the two formats (R80) -/

@[simp] theorem op_formatN (op : BitVec 8) : (formatN op).op = op := by
  apply BitVec.eq_of_getLsbD_eq
  intro i hi
  simp only [formatN, Descriptor.op, BitVec.getLsbD_append, BitVec.getLsbD_extractLsb']
  simp [hi]

@[simp] theorem zeroN_formatN (op : BitVec 8) : (formatN op).zeroN = 0 := by
  apply BitVec.eq_of_getLsbD_eq
  intro i hi
  simp only [formatN, Descriptor.zeroN, BitVec.getLsbD_append, BitVec.getLsbD_extractLsb']
  simp

@[simp] theorem op_formatA (op : BitVec 8) (off len dlen : Int) : (formatA op off len dlen).op = op := by
  apply BitVec.eq_of_getLsbD_eq
  intro i hi
  simp only [formatA, Descriptor.op, BitVec.getLsbD_append, BitVec.getLsbD_extractLsb']
  simp [hi]

@[simp] theorem zeroA_formatA (op : BitVec 8) (off len dlen : Int) : (formatA op off len dlen).zeroA = 0 := by
  apply BitVec.eq_of_getLsbD_eq
  intro i hi
  simp only [formatA, Descriptor.zeroA, BitVec.getLsbD_append, BitVec.getLsbD_extractLsb']
  simp [hi, show ¬ 8 + i < 8 by omega]

@[simp] theorem off_formatA (op : BitVec 8) (off len dlen : Int) :
    (formatA op off len dlen).off = BitVec.ofInt 32 off := by
  apply BitVec.eq_of_getLsbD_eq
  intro i hi
  simp only [formatA, Descriptor.off, BitVec.getLsbD_append, BitVec.getLsbD_extractLsb']
  simp [hi, show ¬ 32 + i < 8 by omega, show ¬ 32 + i - 8 < 24 by omega, show 32 + i - 8 - 24 = i by omega]

@[simp] theorem len_formatA (op : BitVec 8) (off len dlen : Int) :
    (formatA op off len dlen).len = BitVec.ofInt 32 len := by
  apply BitVec.eq_of_getLsbD_eq
  intro i hi
  simp only [formatA, Descriptor.len, BitVec.getLsbD_append, BitVec.getLsbD_extractLsb']
  simp [hi, show ¬ 64 + i < 8 by omega, show ¬ 64 + i - 8 < 24 by omega, show ¬ 64 + i - 8 - 24 < 32 by omega,
    show 64 + i - 8 - 24 - 32 = i by omega]

@[simp] theorem dlen_formatA (op : BitVec 8) (off len dlen : Int) :
    (formatA op off len dlen).dlen = BitVec.ofInt 32 dlen := by
  apply BitVec.eq_of_getLsbD_eq
  intro i hi
  simp only [formatA, Descriptor.dlen, BitVec.getLsbD_append, BitVec.getLsbD_extractLsb']
  simp [hi, show ¬ 96 + i < 8 by omega, show ¬ 96 + i - 8 < 24 by omega, show ¬ 96 + i - 8 - 24 < 32 by omega,
    show ¬ 96 + i - 8 - 24 - 32 < 32 by omega, show 96 + i - 8 - 24 - 32 - 32 = i by omega]

/-! ## A descriptor is its fields -/

theorem Descriptor.eq_formatN_fields (d : Descriptor) : (d.zeroN ++ d.op : BitVec (120 + 8)) = d := by
  apply BitVec.eq_of_getLsbD_eq
  intro i hi
  simp only [Descriptor.zeroN, Descriptor.op, BitVec.getLsbD_append, BitVec.getLsbD_extractLsb']
  by_cases h : i < 8
  · simp [h]
  · simp [h, show i - 8 < 120 by omega, show 8 + (i - 8) = i by omega]

theorem Descriptor.eq_formatA_fields (d : Descriptor) :
    (d.dlen ++ d.len ++ d.off ++ d.zeroA ++ d.op : BitVec (32 + 32 + 32 + 24 + 8)) = d := by
  apply BitVec.eq_of_getLsbD_eq
  intro i hi
  simp only [Descriptor.dlen, Descriptor.len, Descriptor.off, Descriptor.zeroA, Descriptor.op, BitVec.getLsbD_append,
    BitVec.getLsbD_extractLsb']
  by_cases h1 : i < 8
  · simp [h1]
  by_cases h2 : i < 32
  · simp [h1, show i - 8 < 24 by omega, show 8 + (i - 8) = i by omega]
  by_cases h3 : i < 64
  · simp [h1, show ¬ i - 8 < 24 by omega, show i - 8 - 24 < 32 by omega, show 32 + (i - 8 - 24) = i by omega]
  by_cases h4 : i < 96
  · simp [h1, show ¬ i - 8 < 24 by omega, show ¬ i - 8 - 24 < 32 by omega, show i - 8 - 24 - 32 < 32 by omega,
      show 64 + (i - 8 - 24 - 32) = i by omega]
  · simp [h1, show ¬ i - 8 < 24 by omega, show ¬ i - 8 - 24 < 32 by omega, show ¬ i - 8 - 24 - 32 < 32 by omega,
      show i - 8 - 24 - 32 - 32 < 32 by omega, show 96 + (i - 8 - 24 - 32 - 32) = i by omega]

/-! ## Signed operands (R84) -/

theorem toInt_ofInt_signed32 {v : Int} (h : inSigned32 v = true) : (BitVec.ofInt 32 v).toInt = v := by
  simp only [inSigned32, decide_eq_true_eq] at h
  rw [BitVec.toInt_ofInt, Int.bmod_def]
  split <;> omega

theorem inSigned32_toInt (w : Word32) : inSigned32 w.toInt = true := by
  simp only [inSigned32, decide_eq_true_eq]
  have h1 := BitVec.toInt_lt (x := w)
  have h2 := BitVec.le_toInt (x := w)
  omega

/-! ## The decoder, said once -/

theorem decodeN_zero {i : Instr} {d : Descriptor} (h : d.zeroN = 0) : decodeN i d = .ok i := if_pos h

theorem decodeN_reserved {i : Instr} {d : Descriptor} (h : d.zeroN ≠ 0) : decodeN i d = .error .reservedBitSet := if_neg h

theorem decodeA_zero {d : Descriptor} (h : d.zeroA = 0) :
    decodeA d = .ok (.absorb d.off.toInt d.len.toInt d.dlen.toInt) := if_pos h

theorem decodeA_reserved {d : Descriptor} (h : d.zeroA ≠ 0) : decodeA d = .error .reservedBitSet := if_neg h

/-- A descriptor that decodes: its opcode selects the row, its `ZERO` field is zero, its operands are the row's. -/
theorem decode_ok_cases {d : Descriptor} {i : Instr} (h : decode d = .ok i) :
    (i = .init ∧ d.op = 1 ∧ d.zeroN = 0) ∨
    (i = .absorb d.off.toInt d.len.toInt d.dlen.toInt ∧ d.op = 2 ∧ d.zeroA = 0) ∨
    (i = .final ∧ d.op = 3 ∧ d.zeroN = 0) ∨ (i = .result ∧ d.op = 4 ∧ d.zeroN = 0) ∨
    (i = .tfinal ∧ d.op = 5 ∧ d.zeroN = 0) := by
  unfold decode decodeN decodeA at h
  split at h
  · rename_i ho
    split at h
    · rename_i hz
      injection h with h
      exact .inl ⟨h.symm, ho, hz⟩
    · cases h
  split at h
  · rename_i ho
    split at h
    · rename_i hz
      injection h with h
      exact .inr (.inl ⟨h.symm, ho, hz⟩)
    · cases h
  split at h
  · rename_i ho
    split at h
    · rename_i hz
      injection h with h
      exact .inr (.inr (.inl ⟨h.symm, ho, hz⟩))
    · cases h
  split at h
  · rename_i ho
    split at h
    · rename_i hz
      injection h with h
      exact .inr (.inr (.inr (.inl ⟨h.symm, ho, hz⟩)))
    · cases h
  split at h
  · rename_i ho
    split at h
    · rename_i hz
      injection h with h
      exact .inr (.inr (.inr (.inr ⟨h.symm, ho, hz⟩)))
    · cases h
  · cases h

/-! ## The opcode map in match and mask form (R85) -/

/-- A format-N row covers the descriptors with its opcode and a zero `ZERO` field. -/
theorem covers_formatN (d : Descriptor) (op : BitVec 8) :
    d &&& 0xFFFFFFFFFFFFFFFFFFFFFFFFFFFFFFFF = op.setWidth 128 ↔ d.op = op ∧ d.zeroN = 0 := by
  rw [show (0xFFFFFFFFFFFFFFFFFFFFFFFFFFFFFFFF : Descriptor) = BitVec.allOnes 128 from rfl, BitVec.and_allOnes]
  simp only [← BitVec.toNat_inj, Descriptor.op, Descriptor.zeroN, BitVec.extractLsb'_toNat, BitVec.toNat_setWidth,
    Nat.shiftRight_eq_div_pow, show (0 : BitVec 120).toNat = 0 from rfl, Nat.pow_zero, Nat.div_one]
  have h1 := d.isLt
  have h2 := op.isLt
  constructor <;> omega

/-- The format-A row covers the descriptors with its opcode and a zero `ZERO` field, whatever the operands. -/
theorem covers_formatA (d : Descriptor) (op : BitVec 8) :
    d &&& 0x000000000000000000000000FFFFFFFF = op.setWidth 128 ↔ d.op = op ∧ d.zeroA = 0 := by
  simp only [← BitVec.toNat_inj, Descriptor.op, Descriptor.zeroA, BitVec.extractLsb'_toNat, BitVec.toNat_setWidth,
    Nat.shiftRight_eq_div_pow, BitVec.toNat_and, show (0 : BitVec 24).toNat = 0 from rfl, Nat.pow_zero, Nat.div_one]
  rw [show (4294967295 : Descriptor).toNat = 2 ^ 32 - 1 from rfl, Nat.and_two_pow_sub_one_eq_mod]
  have h1 := d.isLt
  have h2 := op.isLt
  constructor <;> omega

end Sys2Proof
end

