-- ==== Sys2Proof/Laws/Memory.lean ====
section
/-! SUPPORT. The DATA space: every operation keeps the canonical form, and a read after a write gives what was written there
and what stood everywhere else. -/

namespace Sys2Proof.Machine

@[simp] theorem Memory.read_nil (a : Nat) : Memory.read [] a = none := rfl

@[simp] theorem Memory.read_cons (b : Nat) (v : Byte) (rest : Memory) (a : Nat) :
    Memory.read ((b, v) :: rest) a = if a = b then some v else Memory.read rest a := rfl

@[simp] theorem cellsRiseFrom_cons (lo b : Nat) (v : Byte) (rest : Memory) :
    cellsRiseFrom lo ((b, v) :: rest) = true ↔ lo ≤ b ∧ b < 2147483648 ∧ cellsRiseFrom (b + 1) rest = true := by
  simp [cellsRiseFrom, and_assoc]

/-- A lower start is a weaker demand. -/
theorem cellsRiseFrom_mono {lo lo' : Nat} (h : lo' ≤ lo) : ∀ {m : Memory}, cellsRiseFrom lo m = true →
    cellsRiseFrom lo' m = true
  | [], _ => rfl
  | (b, v) :: rest, hm => by
    rw [cellsRiseFrom_cons] at hm ⊢
    exact ⟨h.trans hm.1, hm.2⟩

/-- Nothing is listed below the start of a rising list. -/
theorem Memory.read_below {lo a : Nat} (h : a < lo) : ∀ {m : Memory}, cellsRiseFrom lo m = true → Memory.read m a = none
  | [], _ => rfl
  | (b, v) :: rest, hm => by
    rw [cellsRiseFrom_cons] at hm
    rw [Memory.read_cons, if_neg (by omega)]
    exact Memory.read_below (lo := b + 1) (by omega) hm.2.2

/-- A write keeps the order, from a start it does not undercut. -/
theorem cellsRiseFrom_write {lo a : Nat} (v : Byte) (hlo : lo ≤ a) (ha : a < 2147483648) :
    ∀ {m : Memory}, cellsRiseFrom lo m = true → cellsRiseFrom lo (Memory.write m a v) = true
  | [], _ => by simp [Memory.write, cellsRiseFrom, hlo, ha]
  | (b, w) :: rest, hm => by
    rw [cellsRiseFrom_cons] at hm
    unfold Memory.write
    split
    · rename_i h
      rw [cellsRiseFrom_cons, cellsRiseFrom_cons]
      exact ⟨hlo, ha, h, hm.2⟩
    · split
      · rename_i h
        subst h
        rw [cellsRiseFrom_cons]
        exact ⟨hlo, ha, hm.2.2⟩
      · rw [cellsRiseFrom_cons]
        exact ⟨hm.1, hm.2.1, cellsRiseFrom_write v (by omega) ha hm.2.2⟩

/-- A write keeps the canonical form. -/
theorem Memory.wf_write {m : Memory} {a : Nat} (v : Byte) (ha : a < 2147483648) (hm : Memory.wf m = true) :
    Memory.wf (Memory.write m a v) = true := cellsRiseFrom_write v (Nat.zero_le a) ha hm

/-- A read after a write. -/
theorem Memory.read_write (m : Memory) (a : Nat) (v : Byte) (c : Nat) :
    Memory.read (Memory.write m a v) c = if c = a then some v else Memory.read m c := by
  induction m with
  | nil => simp [Memory.write]
  | cons p rest ih =>
    obtain ⟨b, w⟩ := p
    unfold Memory.write
    split
    · simp
    · split
      · rename_i h
        subst h
        by_cases hc : c = a <;> simp [hc]
      · by_cases hc : c = b
        · subst hc
          simp
          omega
        · simp [hc, ih]

/-- A DATA array of at most 2^31 bytes is in canonical form. -/
theorem cellsRiseFrom_cellsFrom (bs : List Byte) : ∀ a lo : Nat, lo ≤ a → a + bs.length ≤ 2147483648 →
    cellsRiseFrom lo (cellsFrom a bs) = true := by
  induction bs with
  | nil => intros; rfl
  | cons b bs ih =>
    intro a lo hlo hlen
    rw [List.length_cons] at hlen
    rw [cellsFrom, cellsRiseFrom_cons]
    exact ⟨hlo, by omega, ih (a + 1) (a + 1) le_rfl (by omega)⟩

theorem Memory.wf_ofBytes {bs : List Byte} (h : bs.length ≤ 2147483648) : Memory.wf (Memory.ofBytes bs) = true :=
  cellsRiseFrom_cellsFrom bs 0 0 le_rfl (by omega)

/-- What an array laid down at `a` reads as. -/
theorem Memory.read_cellsFrom (bs : List Byte) : ∀ a c : Nat,
    Memory.read (cellsFrom a bs) c = if a ≤ c then bs[c - a]? else none := by
  induction bs with
  | nil => intro a c; simp [cellsFrom]
  | cons b bs ih =>
    intro a c
    rw [cellsFrom, Memory.read_cons, ih]
    by_cases h : c = a
    · subst h; simp
    · by_cases h' : a ≤ c
      · obtain ⟨d, rfl⟩ : ∃ d, c = a + (d + 1) := ⟨c - a - 1, by omega⟩
        rw [if_neg h, if_pos (by omega), if_pos h']
        simp [show a + (d + 1) - (a + 1) = d by omega, show a + (d + 1) - a = d + 1 by omega]
      · rw [if_neg h, if_neg (by omega), if_neg h']

/-- Byte k of a DATA array. -/
theorem Memory.read_ofBytes (bs : List Byte) (k : Nat) : Memory.read (Memory.ofBytes bs) k = bs[k]? := by
  simp [Memory.ofBytes, Memory.read_cellsFrom]

/-- A range read answers bytes exactly when every byte of the range is there, and then they are those bytes. -/
theorem Memory.readRange_eq_some (m : Memory) (n : Nat) : ∀ (a : Nat) (bs : List Byte),
    Memory.readRange m a n = some bs ↔ bs.length = n ∧ ∀ k, k < n → Memory.read m (a + k) = bs[k]? := by
  induction n with
  | zero =>
    intro a bs
    simp only [Memory.readRange, Option.some.injEq]
    constructor
    · rintro rfl; simp
    · rintro ⟨h, -⟩; exact (List.length_eq_zero_iff.mp h).symm
  | succ n ih =>
    intro a bs
    rw [Memory.readRange]
    constructor
    · intro h
      split at h
      · rename_i b cs hb hcs
        obtain rfl := Option.some.inj h
        obtain ⟨hlen, hread⟩ := (ih (a + 1) cs).mp hcs
        refine ⟨by simp [hlen], fun k hk => ?_⟩
        cases k with
        | zero => simpa using hb
        | succ k =>
          have := hread k (by omega)
          rw [show a + (k + 1) = a + 1 + k by omega, this]
          simp
      · exact absurd h (by simp)
    · rintro ⟨hlen, hread⟩
      cases bs with
      | nil => simp at hlen
      | cons b cs =>
        have hb : Memory.read m a = some b := by simpa using hread 0 (by omega)
        have hcs : Memory.readRange m (a + 1) n = some cs := by
          refine (ih (a + 1) cs).mpr ⟨by simpa using hlen, fun k hk => ?_⟩
          have := hread (k + 1) (by omega)
          rw [show a + (k + 1) = a + 1 + k by omega] at this
          simpa using this
        rw [hb, hcs]

/-- A range read answers nothing exactly when a byte of the range is absent. -/
theorem Memory.readRange_eq_none (m : Memory) (n : Nat) : ∀ a : Nat,
    Memory.readRange m a n = none ↔ ∃ k, k < n ∧ Memory.read m (a + k) = none := by
  induction n with
  | zero => intro a; simp [Memory.readRange]
  | succ n ih =>
    intro a
    rw [Memory.readRange]
    constructor
    · intro h
      cases hb : Memory.read m a with
      | none => exact ⟨0, by omega, by simpa using hb⟩
      | some b =>
        cases hcs : Memory.readRange m (a + 1) n with
        | none =>
          obtain ⟨k, hk, hr⟩ := (ih (a + 1)).mp hcs
          exact ⟨k + 1, by omega, by rwa [show a + (k + 1) = a + 1 + k by omega]⟩
        | some cs => simp [hb, hcs] at h
    · rintro ⟨k, hk, hr⟩
      cases k with
      | zero => rw [Nat.add_zero] at hr; simp [hr]
      | succ k =>
        have : Memory.readRange m (a + 1) n = none :=
          (ih (a + 1)).mpr ⟨k, by omega, by rwa [show a + 1 + k = a + (k + 1) by omega]⟩
        rw [this]
        split <;> simp_all

/-- The window of a DATA array that a range check admits. -/
theorem Memory.readRange_window (before bytes after : List Byte) :
    Memory.readRange (Memory.ofBytes (before ++ bytes ++ after)) before.length bytes.length = some bytes := by
  refine (Memory.readRange_eq_some _ _ _ _).mpr ⟨rfl, fun k hk => ?_⟩
  rw [Memory.read_ofBytes, List.append_assoc, List.getElem?_append_right (by omega),
    List.getElem?_append_left (by omega)]
  congr 1
  omega

end Sys2Proof.Machine
end

