-- ==== Sys2Proof/Laws/Commands.lean ====
section
/-! SUPPORT. What each command and a step can do, said once: one inversion lemma for each, from which frames, phases and
invariants follow without unfolding the meanings again. -/

namespace Sys2Proof.Machine

/-! ## Guards -/

@[simp] theorem admitsInput_eq_true (p : Phase) : p.admitsInput = true ↔ p = .ready ∨ p = .absorbing := by
  cases p <;> simp [Phase.admitsInput]

@[simp] theorem admitsInput_eq_false (p : Phase) : p.admitsInput = false ↔ p ≠ .ready ∧ p ≠ .absorbing := by
  cases p <;> simp [Phase.admitsInput]

@[simp] theorem admitsResult_eq_true (p : Phase) : p.admitsResult = true ↔ p = .finalized := by
  cases p <;> simp [Phase.admitsResult]

@[simp] theorem admitsResult_eq_false (p : Phase) : p.admitsResult = false ↔ p ≠ .finalized := by
  cases p <;> simp [Phase.admitsResult]

@[simp] theorem rangeOk_eq_true (off len dlen : Int) : rangeOk off len dlen = true ↔ 0 ≤ off ∧ 0 ≤ len ∧ off + len ≤ dlen := by
  simp [rangeOk]

theorem rangeOk_eq_false (off len dlen : Int) : rangeOk off len dlen = false ↔ off < 0 ∨ len < 0 ∨ off + len > dlen := by
  simp only [rangeOk, decide_eq_false_iff_not]
  omega

theorem alg_eq_or (a : Alg) : a = .cubehash ∨ a = .jh := by cases a <;> simp

/-! ## COUNT -/

theorem countAfter_below {count : Word64} {len : Nat} (h : count.toNat + len < messageBound) :
    (countAfter count len).toNat = count.toNat + len := by
  have hb : messageBound = 2 ^ 61 := rfl
  rw [countAfter, if_pos h, BitVec.toNat_ofNat]
  omega

/-- Below the bound, `COUNT` after an `ABSORB` is the sum (R28, R103). -/
theorem countAfter_eq {count : Word64} {len : Nat} (h : count.toNat + len < messageBound) :
    countAfter count len = BitVec.ofNat 64 (count.toNat + len) := if_pos h

/-! ## INIT -/

theorem execInit_cubehash {s : State} (h : s.alg = .cubehash) : execInit s = .next { s with
    x := chIv s.hashSize, buf := [], count := 0, phase := .ready, response := some ⟨.ok, []⟩ } := by
  simp only [execInit, loadIv, State.respondOk]
  split
  · rfl
  · simp_all

theorem execInit_jh {s : State} (h : s.alg = .jh) : execInit s = .next { s with
    h := jhIv s.hashSize, buf := [], count := 0, phase := .ready, response := some ⟨.ok, []⟩ } := by
  simp only [execInit, loadIv, State.respondOk]
  split
  · simp_all
  · rfl

/-! ## ABSORB -/

theorem execAbsorb_misuse {s : State} (off len dlen : Int) (h : s.phase.admitsInput = false) :
    execAbsorb off len dlen s = .next (s.raise .misuse) := by
  rw [execAbsorb, if_pos h]

theorem execAbsorb_outOfRange {s : State} {off len dlen : Int} (h : s.phase.admitsInput = true)
    (hr : rangeOk off len dlen = false) : execAbsorb off len dlen s = .next (s.raise .outOfRange) := by
  rw [execAbsorb, if_neg (by simp [h]), if_pos hr]

theorem execAbsorb_absent {s : State} {off len dlen : Int} (h : s.phase.admitsInput = true)
    (hr : rangeOk off len dlen = true) (hd : Memory.readRange s.data off.toNat len.toNat = none) :
    execAbsorb off len dlen s = .fault .dataAbsent := by
  rw [execAbsorb, if_neg (by simp [h]), if_neg (by simp [hr]), hd]

theorem execAbsorb_ok {s : State} {off len dlen : Int} {bs : List Byte} (h : s.phase.admitsInput = true)
    (hr : rangeOk off len dlen = true) (hd : Memory.readRange s.data off.toNat len.toNat = some bs) :
    execAbsorb off len dlen s = .next { pushAll s bs with
      count := countAfter s.count len.toNat, phase := .absorbing, response := some ⟨.ok, []⟩ } := by
  rw [execAbsorb, if_neg (by simp [h]), if_neg (by simp [hr]), hd]
  rfl

/-- All an `ABSORB` that answers a next state can have done. -/
theorem execAbsorb_cases {s t : State} {off len dlen : Int} (h : execAbsorb off len dlen s = .next t) :
    (s.phase.admitsInput = false ∧ t = s.raise .misuse) ∨
    (s.phase.admitsInput = true ∧ rangeOk off len dlen = false ∧ t = s.raise .outOfRange) ∨
    (s.phase.admitsInput = true ∧ rangeOk off len dlen = true ∧
      ∃ bs, Memory.readRange s.data off.toNat len.toNat = some bs ∧ bs.length = len.toNat ∧
        t = { pushAll s bs with count := countAfter s.count len.toNat, phase := .absorbing, response := some ⟨.ok, []⟩ }) := by
  cases hp : s.phase.admitsInput with
  | false => rw [execAbsorb_misuse off len dlen hp] at h; injection h with h; exact .inl ⟨rfl, h.symm⟩
  | true =>
    cases hr : rangeOk off len dlen with
    | false => rw [execAbsorb_outOfRange hp hr] at h; injection h with h; exact .inr (.inl ⟨rfl, rfl, h.symm⟩)
    | true =>
      cases hd : Memory.readRange s.data off.toNat len.toNat with
      | none => rw [execAbsorb_absent hp hr hd] at h; cases h
      | some bs =>
        rw [execAbsorb_ok hp hr hd] at h
        injection h with h
        exact .inr (.inr ⟨rfl, rfl, bs, rfl, ((Memory.readRange_eq_some _ _ _ _).mp hd).1, h.symm⟩)

/-! ## FINAL and TFINAL -/

/-- `FINAL`'s state changes in a CubeHash instance: the padded block, then the closing steps. -/
theorem finalise_cubehash {s : State} (ha : s.alg = .cubehash) (hp : s.pos < 32) : finalise s = { s with
    x := chClose (chBlock (chLoad (s.buf ++ chPad s.pos)) s.x), buf := [], phase := .finalized } := by
  have hlen : (s.buf ++ chPad s.pos).length = 32 := by
    rw [List.length_append, length_chPad hp]
    simp only [State.pos] at *
    omega
  simp only [finalise, ha, chFinal]
  rw [pushAll_cubehash _ ha hp, completeBlocks_single (by omega) hlen, lastBytes_single (by omega) hlen]
  simp [ha]

/-- In a JH instance with `POS` = 0: one block. -/
theorem finalise_jh_zero {s : State} (ha : s.alg = .jh) (hp : s.pos = 0) : finalise s = { s with
    h := jhBlock jhRc (jhLoad (jhPad 0 s.count)) s.h, buf := [], phase := .finalized } := by
  have hb : s.buf = [] := by simpa [State.pos] using hp
  have hlen : (jhPad 0 s.count).length = 64 := by rw [length_jhPad (by omega)]; rfl
  simp only [finalise, ha, jhFinal]
  rw [pushAll_jh _ ha (by omega), hp, hb, List.nil_append, completeBlocks_single (by omega) hlen,
    lastBytes_single (by omega) hlen]
  simp [ha]

/-- In a JH instance with pending bytes: two blocks. -/
theorem finalise_jh_pos {s : State} (ha : s.alg = .jh) (h0 : 0 < s.pos) (hp : s.pos < 64) : finalise s = { s with
    h := jhBlock jhRc (jhLoad (List.replicate 56 0 ++ unbe64 (jhBitLength s.count)))
      (jhBlock jhRc (jhLoad (s.buf ++ (0x80 : Byte) :: List.replicate (63 - s.pos) 0)) s.h)
    buf := [], phase := .finalized } := by
  have hlen1 : (s.buf ++ (0x80 : Byte) :: List.replicate (63 - s.pos) 0).length = 64 := by
    simp only [State.pos] at *
    simp
    omega
  have hlen2 : (List.replicate 56 (0 : Byte) ++ unbe64 (jhBitLength s.count)).length = 64 := rfl
  have e : s.buf ++ jhPad s.pos s.count = (s.buf ++ (0x80 : Byte) :: List.replicate (63 - s.pos) 0) ++
      ((List.replicate 56 (0 : Byte) ++ unbe64 (jhBitLength s.count)) ++ []) := by
    rw [jhPad_pos h0 hp]
    simp
  simp only [finalise, ha, jhFinal]
  rw [pushAll_jh _ ha hp, e, completeBlocks_append (by omega) hlen1, completeBlocks_append (by omega) hlen2,
    lastBytes_append (by omega) hlen1, lastBytes_append (by omega) hlen2, completeBlocks_short (by simp),
    lastBytes_short (by simp)]
  simp [ha]

/-- What finalising leaves alone, from any state. -/
theorem finalise_frame (s : State) : ∃ x h buf,
    finalise s = { s with x := x, h := h, buf := buf, phase := .finalized } ∧ (s.alg = .jh → x = s.x) ∧
      (s.alg = .cubehash → h = s.h) := by
  cases ha : s.alg with
  | cubehash =>
    obtain ⟨x, h, buf, e, hx, hh⟩ := pushAll_frame (chPad s.pos) s
    simp only [finalise, ha, chFinal, e]
    exact ⟨_, _, _, rfl, by simp, fun _ => hh ha⟩
  | jh =>
    obtain ⟨x, h, buf, e, hx, hh⟩ := pushAll_frame (jhPad s.pos s.count) s
    simp only [finalise, ha, jhFinal, e]
    exact ⟨_, _, _, rfl, fun _ => hx ha, by simp⟩

/-- Finalising empties the buffer (R27). -/
theorem finalise_buf {s : State} (hp : s.pos < s.blockSize) : (finalise s).buf = [] := by
  cases ha : s.alg with
  | cubehash => rw [finalise_cubehash ha (by simpa [State.blockSize, ha, Alg.blockSize] using hp)]
  | jh =>
    have hp' : s.pos < 64 := by simpa [State.blockSize, ha, Alg.blockSize] using hp
    by_cases h0 : s.pos = 0
    · rw [finalise_jh_zero ha h0]
    · rw [finalise_jh_pos ha (by omega) hp']

theorem length_digest (s : State) : (digest s).length = s.hashSize.bytes := by
  unfold digest
  cases s.alg <;> simp [chResult, jhResult]

theorem execFinal_cases {s t : State} (h : execFinal s = .next t) :
    (s.phase.admitsInput = false ∧ t = s.raise .misuse) ∨
    (s.phase.admitsInput = true ∧ t = { finalise s with response := some ⟨.ok, []⟩ }) := by
  unfold execFinal at h
  split at h <;> injection h with h
  · exact .inl ⟨‹_›, h.symm⟩
  · exact .inr ⟨(Bool.not_eq_false _).mp ‹_›, h.symm⟩

theorem execTfinal_cases {s t : State} (h : execTfinal s = .next t) :
    (s.phase.admitsInput = false ∧ t = s.raise .misuse) ∨
    (s.phase.admitsInput = true ∧ t = { finalise s with response := some ⟨.ok, digest (finalise s)⟩ }) := by
  unfold execTfinal at h
  split at h <;> injection h with h
  · exact .inl ⟨‹_›, h.symm⟩
  · exact .inr ⟨(Bool.not_eq_false _).mp ‹_›, h.symm⟩

/-! ## RESULT -/

theorem execResult_cases {s t : State} (h : execResult s = .next t) :
    (s.phase ≠ .finalized ∧ t = s.raise .misuse) ∨
    (s.phase = .finalized ∧ t = { s with response := some ⟨.ok, digest s⟩ }) := by
  unfold execResult at h
  split at h <;> injection h with h
  · exact .inl ⟨by simpa using ‹s.phase.admitsResult = false›, h.symm⟩
  · exact .inr ⟨by simpa using ‹¬ s.phase.admitsResult = false›, h.symm⟩

theorem execInit_cases {s t : State} (h : execInit s = .next t) :
    ∃ x hh, t = { s with x := x, h := hh, buf := [], count := 0, phase := .ready, response := some ⟨.ok, []⟩ } ∧
      (s.alg = .cubehash → x = chIv s.hashSize ∧ hh = s.h) ∧ (s.alg = .jh → x = s.x ∧ hh = jhIv s.hashSize) := by
  rcases alg_eq_or s.alg with ha | ha
  · rw [execInit_cubehash ha] at h
    injection h with h
    exact ⟨_, _, h.symm, fun _ => ⟨rfl, rfl⟩, by simp [ha]⟩
  · rw [execInit_jh ha] at h
    injection h with h
    exact ⟨_, _, h.symm, by simp [ha], fun _ => ⟨rfl, rfl⟩⟩

/-! ## Any command -/

/-- All a command that answers a next state can have done: an error with nothing changed, or an OK that leaves the
construction values, the port, DATA and the engine that is not built alone. -/
theorem exec_cases {i : Instr} {s t : State} (h : exec i s = .next t) :
    (∃ e, t = s.raise e ∧ ((e = .misuse ∧ ¬ Admits i s.phase) ∨
      (e = .outOfRange ∧ Admits i s.phase ∧ ∃ off len dlen, i = .absorb off len dlen ∧ rangeOk off len dlen = false))) ∨
    (Admits i s.phase ∧ ∃ x hh buf count phase p,
      t = { s with x := x, h := hh, buf := buf, count := count, phase := phase, response := some ⟨.ok, p⟩ } ∧
      (s.alg = .jh → x = s.x) ∧ (s.alg = .cubehash → hh = s.h)) := by
  cases i with
  | init =>
    obtain ⟨x, hh, rfl, h1, h2⟩ := execInit_cases h
    exact .inr ⟨trivial, x, hh, _, _, _, _, rfl, fun a => (h2 a).1, fun a => (h1 a).2⟩
  | absorb off len dlen =>
    rcases execAbsorb_cases h with ⟨hp, rfl⟩ | ⟨hp, hr, rfl⟩ | ⟨hp, hr, bs, hd, hl, rfl⟩
    · exact .inl ⟨_, rfl, .inl ⟨rfl, by simpa [Admits] using hp⟩⟩
    · exact .inl ⟨_, rfl, .inr ⟨rfl, by simpa [Admits] using hp, off, len, dlen, rfl, hr⟩⟩
    · obtain ⟨x, hh, buf, e, h1, h2⟩ := pushAll_frame bs s
      rw [e]
      exact .inr ⟨by simpa [Admits] using hp, x, hh, buf, _, _, _, rfl, h1, h2⟩
  | final =>
    rcases execFinal_cases h with ⟨hp, rfl⟩ | ⟨hp, rfl⟩
    · exact .inl ⟨_, rfl, .inl ⟨rfl, by simpa [Admits] using hp⟩⟩
    · obtain ⟨x, hh, buf, e, h1, h2⟩ := finalise_frame s
      rw [e]
      exact .inr ⟨by simpa [Admits] using hp, x, hh, buf, _, _, _, rfl, h1, h2⟩
  | tfinal =>
    rcases execTfinal_cases h with ⟨hp, rfl⟩ | ⟨hp, rfl⟩
    · exact .inl ⟨_, rfl, .inl ⟨rfl, by simpa [Admits] using hp⟩⟩
    · obtain ⟨x, hh, buf, e, h1, h2⟩ := finalise_frame s
      rw [e]
      exact .inr ⟨by simpa [Admits] using hp, x, hh, buf, _, _, _, rfl, h1, h2⟩
  | result =>
    rcases execResult_cases h with ⟨hp, rfl⟩ | ⟨hp, rfl⟩
    · exact .inl ⟨_, rfl, .inl ⟨rfl, by simpa [Admits] using hp⟩⟩
    · exact .inr ⟨hp, s.x, s.h, s.buf, s.count, s.phase, _, rfl, fun _ => rfl, fun _ => rfl⟩

/-- A phase that does not admit a command answers Misuse (R202). -/
theorem exec_notAdmits {i : Instr} {s : State} (h : ¬ Admits i s.phase) : exec i s = .next (s.raise .misuse) := by
  cases i with
  | init => exact absurd trivial h
  | absorb => exact execAbsorb_misuse _ _ _ (by simpa [Admits] using h)
  | final => simp only [exec, execFinal]; rw [if_pos (by simpa [Admits] using h)]
  | result => simp only [exec, execResult]; rw [if_pos (by simpa [Admits] using h)]
  | tfinal => simp only [exec, execTfinal]; rw [if_pos (by simpa [Admits] using h)]

/-- Where the host has supplied the data, a command answers a next state (60_exceptions.md R200; log 6). -/
theorem exec_answers {i : Instr} {s : State} (h : ¬ LacksData i s) : ∃ t, exec i s = .next t := by
  cases i with
  | init => exact ⟨_, rfl⟩
  | absorb off len dlen =>
    cases hp : s.phase.admitsInput with
    | false => exact ⟨_, execAbsorb_misuse off len dlen hp⟩
    | true =>
      cases hr : rangeOk off len dlen with
      | false => exact ⟨_, execAbsorb_outOfRange hp hr⟩
      | true =>
        cases hd : Memory.readRange s.data off.toNat len.toNat with
        | none =>
          obtain ⟨h0, h1, h2⟩ := (rangeOk_eq_true _ _ _).mp hr
          exact absurd ⟨off, len, dlen, rfl, (admitsInput_eq_true _).mp hp, h0, h1, h2,
            (Memory.readRange_eq_none _ _ _).mp hd⟩ h
        | some bs => exact ⟨_, execAbsorb_ok hp hr hd⟩
  | final =>
    simp only [exec, execFinal]
    split <;> exact ⟨_, rfl⟩
  | result =>
    simp only [exec, execResult]
    split <;> exact ⟨_, rfl⟩
  | tfinal =>
    simp only [exec, execTfinal]
    split <;> exact ⟨_, rfl⟩

/-! ## The step -/

/-- All a step that answers a next state can have done. -/
theorem step_cases {s t : State} (h : step s = .next t) :
    (s.inbox = [] ∧ t = s) ∨
    (∃ rest, s.inbox = .resetInput :: rest ∧ t = acceptReset s rest) ∨
    (∃ c rest e, s.inbox = .command c :: rest ∧ decode c.descr = .error e ∧ t = (accept s c rest).raise .illegalCommand) ∨
    (∃ c rest i, s.inbox = .command c :: rest ∧ decode c.descr = .ok i ∧ exec i (accept s c rest) = .next t) := by
  unfold step at h
  split at h
  · injection h with h
    exact .inl ⟨‹_›, h.symm⟩
  · injection h with h
    exact .inr (.inl ⟨_, ‹_›, h.symm⟩)
  · split at h
    · injection h with h
      exact .inr (.inr (.inl ⟨_, _, _, ‹_›, ‹_›, h.symm⟩))
    · exact .inr (.inr (.inr ⟨_, _, _, ‹_›, ‹_›, h⟩))

end Sys2Proof.Machine
end

