-- ==== Sys2Proof/Laws/CubeHashFast.lean ====
section
/-! SUPPORT. The CubeHash round on two lists of 16 words, proved equal to `chRound`: the form the kernel evaluates quickly. -/

namespace Sys2Proof.Laws

open Sys2Proof.Machine

/-- The two halves of a state as lists of words. -/
structure ChLists where
  lo : List Word32
  hi : List Word32
deriving DecidableEq, Repr

/-- The halves of a state. -/
def chLists (x : ChState) : ChLists := ⟨List.ofFn (chLo x), List.ofFn (chHi x)⟩

/-- Index xor 8 on 16 words. -/
def listXor8 (l : List Word32) : List Word32 := l.drop 8 ++ l.take 8

/-- Index xor 4. -/
def listXor4 : List Word32 → List Word32
  | a :: b :: c :: d :: e :: f :: g :: h :: r => e :: f :: g :: h :: a :: b :: c :: d :: listXor4 r
  | r => r

/-- Index xor 2. -/
def listXor2 : List Word32 → List Word32
  | a :: b :: c :: d :: r => c :: d :: a :: b :: listXor2 r
  | r => r

/-- Index xor 1. -/
def listXor1 : List Word32 → List Word32
  | a :: b :: r => b :: a :: listXor1 r
  | r => r

/-- The round on lists. -/
def fastRound (x : ChLists) : ChLists :=
  let h1 := List.zipWith add32 x.hi x.lo
  let l1 := List.zipWith (· ^^^ ·) (listXor8 (x.lo.map (rotl32 · 7))) h1
  let h3 := List.zipWith add32 (listXor2 h1) l1
  let l2 := List.zipWith (· ^^^ ·) (listXor4 (l1.map (rotl32 · 11))) h3
  ⟨l2, listXor1 h3⟩

/-- n rounds on lists, structurally. -/
def fastRounds : Nat → ChLists → ChLists
  | 0, x => x
  | n + 1, x => fastRounds n (fastRound x)

@[simp] theorem chLo_chJoin (lo hi : Fin 16 → Word32) : chLo (chJoin lo hi) = lo := by
  funext i
  simp [chLo, chJoin]

@[simp] theorem chHi_chJoin (lo hi : Fin 16 → Word32) : chHi (chJoin lo hi) = hi := by
  funext i
  simp [chHi, chJoin]

@[simp] theorem chJoin_halves (x : ChState) : chJoin (chLo x) (chHi x) = x := by
  apply Vector.ext
  intro i h
  simp only [chJoin, chLo, chHi, Vector.getElem_ofFn]
  split
  · rfl
  · have e : 16 + (i - 16) = i := by omega
    simp only [e]

/-- A state is its two halves. -/
theorem chState_ext {x y : ChState} (hlo : chLo x = chLo y) (hhi : chHi x = chHi y) : x = y := by
  rw [← chJoin_halves x, ← chJoin_halves y, hlo, hhi]

theorem listXor8_ofFn (f : Fin 16 → Word32) : List.ofFn (fun i => f (i ^^^ 8)) = listXor8 (List.ofFn f) := rfl
theorem listXor4_ofFn (f : Fin 16 → Word32) : List.ofFn (fun i => f (i ^^^ 4)) = listXor4 (List.ofFn f) := rfl
theorem listXor2_ofFn (f : Fin 16 → Word32) : List.ofFn (fun i => f (i ^^^ 2)) = listXor2 (List.ofFn f) := rfl
theorem listXor1_ofFn (f : Fin 16 → Word32) : List.ofFn (fun i => f (i ^^^ 1)) = listXor1 (List.ofFn f) := rfl

theorem zipWith_ofFn (g : Word32 → Word32 → Word32) (a b : Fin 16 → Word32) :
    List.zipWith g (List.ofFn a) (List.ofFn b) = List.ofFn fun i => g (a i) (b i) := rfl

theorem map_ofFn16 (g : Word32 → Word32) (a : Fin 16 → Word32) :
    (List.ofFn a).map g = List.ofFn fun i => g (a i) := rfl

/-- The list round is `chRound` on the halves. -/
theorem chLists_chRound (x : ChState) : chLists (chRound x) = fastRound (chLists x) := by
  simp only [chLists, fastRound, zipWith_ofFn, map_ofFn16, ← listXor8_ofFn, ← listXor4_ofFn, ← listXor2_ofFn,
    ← listXor1_ofFn, chRound, chFirstHalfRound, chSecondHalfRound, chSwapHigh, chXorHighIntoLow, chSwapLow,
    chRotateLow, chAddLowIntoHigh, chLo_chJoin, chHi_chJoin]

/-- The same for n rounds. -/
theorem chLists_rounds (n : Nat) (x : ChState) : chLists (chRound^[n] x) = fastRounds n (chLists x) := by
  induction n generalizing x with
  | zero => rfl
  | succ n ih => rw [Function.iterate_succ_apply, ih, chLists_chRound, fastRounds]

/-- The halves determine the state. -/
theorem chLists_injective {x y : ChState} (h : chLists x = chLists y) : x = y := by
  injection h with hlo hhi
  exact chState_ext (List.ofFn_injective hlo) (List.ofFn_injective hhi)

/-- n blank transforms are 16 n rounds. -/
theorem chBlank_iterate (n : Nat) (x : ChState) : chBlank^[n] x = chRound^[16 * n] x := by
  have : chBlank = chRound^[16] := rfl
  rw [this, ← Function.iterate_mul]

/-- The closing XOR on lists (R137). -/
theorem chLists_chFlipLast (x : ChState) :
    chLists (chFlipLast x) = ⟨(chLists x).lo, (chLists x).hi.modify 15 (· ^^^ 1)⟩ := by
  simp only [chLists, ChLists.mk.injEq]
  constructor
  · congr 1
    funext i
    simp only [chLo, chFlipLast, Vector.getElem_set]
    rw [if_neg (by omega)]
  · apply List.ext_getElem
    · simp
    · intro i h _
      rw [List.length_ofFn] at h
      simp only [List.getElem_ofFn, List.getElem_modify, chHi, chFlipLast, Vector.getElem_set]
      by_cases e : i = 15
      · subst e
        rfl
      · rw [if_neg (by omega), if_neg (by omega)]

/-- The closing steps on lists (R137). -/
theorem chLists_chClose (x : ChState) : chLists (chClose x) =
    fastRounds 160 ⟨(chLists x).lo, (chLists x).hi.modify 15 (· ^^^ 1)⟩ := by
  rw [chClose, chBlank_iterate, chLists_rounds, chLists_chFlipLast]

/-- The block transform on lists (R133). -/
theorem chLists_chBlock (w : ChBlockWords) (x : ChState) : chLists (chBlock w x) = fastRounds 16 (chLists (chXorin w x)) := by
  rw [chBlock, chLists_rounds]

end Sys2Proof.Laws
end

