-- ==== Sys2Proof/Laws/Engines.lean ====
section
/-! SUPPORT. The steps of the two engines, one lemma each: how a CubeHash step is undone, what a JH layer does to one bit, and a
JH state as its two passes. -/

namespace Sys2Proof.Machine

open Sys2Proof.Laws

/-! ## CubeHash steps undone -/

/-- A rotation by n is undone by a rotation by 32 − n. -/
theorem rotl32_rotl32 (a : Word32) {n : Nat} (h0 : 0 < n) (h : n < 32) : rotl32 (rotl32 a n) (32 - n) = a := by
  apply BitVec.eq_of_getLsbD_eq
  intro i hi
  simp only [rotl32, BitVec.getLsbD_or, BitVec.getLsbD_shiftLeft, BitVec.getLsbD_ushiftRight, hi, decide_true, Bool.true_and]
  by_cases hin : i < 32 - n
  · simp only [hin, decide_true, Bool.not_true, Bool.false_and, Bool.false_or]
    rw [show 32 - (32 - n) + i - n = i by omega]
    simp only [show ¬ 32 - (32 - n) + i < n by omega, show 32 - (32 - n) + i < 32 by omega, decide_true, decide_false,
      Bool.not_false, Bool.true_and]
    rw [BitVec.getLsbD_of_ge a (32 - n + (32 - (32 - n) + i)) (by omega), Bool.or_false]
  · simp only [hin, decide_false, Bool.not_false, Bool.true_and]
    simp only [show i - (32 - n) < n by omega, show i - (32 - n) < 32 by omega, show ¬ 32 - (32 - n) + i < 32 by omega,
      decide_true, decide_false, Bool.not_true, Bool.false_and, Bool.and_false, Bool.false_or]
    rw [show 32 - n + (i - (32 - n)) = i by omega,
      BitVec.getLsbD_of_ge a (32 - n + (32 - (32 - n) + i)) (by omega), Bool.or_false]

/-- The additions of steps 1 and 6 undone. -/
def chSubLowFromHigh (x : ChState) : ChState := chJoin (chLo x) fun i => chHi x i - chLo x i

theorem chSub_chAdd (x : ChState) : chSubLowFromHigh (chAddLowIntoHigh x) = x := by
  apply chState_ext <;> funext i <;> simp [chSubLowFromHigh, chAddLowIntoHigh, add32]

theorem chAdd_chSub (x : ChState) : chAddLowIntoHigh (chSubLowFromHigh x) = x := by
  apply chState_ext <;> funext i <;> simp [chSubLowFromHigh, chAddLowIntoHigh, add32]

theorem chRotateLow_undone (x : ChState) {n : Nat} (h0 : 0 < n) (h : n < 32) :
    chRotateLow (32 - n) (chRotateLow n x) = x := by
  apply chState_ext <;> funext i <;> simp [chRotateLow, rotl32_rotl32 _ h0 h]

theorem xor_xor_fin16 (i n : Fin 16) : i ^^^ n ^^^ n = i := by
  revert i n
  decide

theorem chSwapLow_undone (n : Fin 16) (x : ChState) : chSwapLow n (chSwapLow n x) = x := by
  apply chState_ext <;> funext i <;> simp [chSwapLow, xor_xor_fin16]

theorem chSwapHigh_undone (n : Fin 16) (x : ChState) : chSwapHigh n (chSwapHigh n x) = x := by
  apply chState_ext <;> funext i <;> simp [chSwapHigh, xor_xor_fin16]

theorem chXor_undone (x : ChState) : chXorHighIntoLow (chXorHighIntoLow x) = x := by
  apply chState_ext <;> funext i <;> simp [chXorHighIntoLow]

/-! ## JH layers -/

/-- Bit k of the complement. -/
theorem getLsbD_not64 (a : Word64) {k : Nat} (hk : k < 64) : (not64 a).getLsbD k = !a.getLsbD k := by
  rw [not64, BitVec.getLsbD_xor, show (0xFFFFFFFFFFFFFFFF : Word64) = BitVec.allOnes 64 from rfl, BitVec.getLsbD_allOnes]
  simp [hk]

/-- A state written back from its two passes. -/
theorem jhOfPasses_jhPass (s : JhState) : jhOfPasses (jhPass s 0) (jhPass s 1) = s := by
  apply Vector.ext
  intro i hi
  interval_cases i <;> rfl

theorem jhPass_jhOfPasses_zero (p q : JhPass) : jhPass (jhOfPasses p q) 0 = p := rfl

theorem jhPass_jhOfPasses_one (p q : JhPass) : jhPass (jhOfPasses p q) 1 = q := rfl

theorem jhWSwap_undone (s : JhState) : jhWSwap (jhWSwap s) = s := by
  apply Vector.ext
  intro i hi
  interval_cases i <;> rfl

/-- The eight lines of the linear layer undone, last to first. -/
def jhLUndone (m : JhPass) : JhPass :=
  let ⟨m0, m1, m2, m3, m4, m5, m6, m7⟩ := m
  let m3 := m3 ^^^ m4
  let m2 := m2 ^^^ m4 ^^^ m7
  let m1 := m1 ^^^ m6
  let m0 := m0 ^^^ m5
  let m7 := m7 ^^^ m0
  let m6 := m6 ^^^ m0 ^^^ m3
  let m5 := m5 ^^^ m2
  let m4 := m4 ^^^ m1
  ⟨m0, m1, m2, m3, m4, m5, m6, m7⟩

theorem xor_self_right (a b : Word64) : a ^^^ b ^^^ b = a := by simp

theorem xor_pair_right (a b c : Word64) : a ^^^ b ^^^ c ^^^ b ^^^ c = a := by
  rw [BitVec.xor_assoc a b c, BitVec.xor_assoc (a ^^^ (b ^^^ c)) b c, xor_self_right]

theorem jhLUndone_jhL (m : JhPass) : jhLUndone (jhL m) = m := by
  obtain ⟨m0, m1, m2, m3, m4, m5, m6, m7⟩ := m
  simp only [jhL, jhLUndone, xor_self_right, xor_pair_right]

theorem jhL_jhLUndone (m : JhPass) : jhL (jhLUndone m) = m := by
  obtain ⟨m0, m1, m2, m3, m4, m5, m6, m7⟩ := m
  simp only [jhL, jhLUndone, xor_self_right, xor_pair_right]

end Sys2Proof.Machine
end

