-- ==== Sys2Proof/Laws/Hidden.lean ====
section
/-! SUPPORT. What no command reads: the engine that is not built, and the model's counter of resets. Changing them before a
command or after it is the same. -/

namespace Sys2Proof.Machine

/-- The state with other values where no command looks. -/
def State.withHidden (s : State) (x : ChState) (h : JhState) (r : Nat) : State :=
  { s with x := if s.alg = .jh then x else s.x, h := if s.alg = .cubehash then h else s.h, resets := r }

theorem bufPush_withHidden (x : ChState) (h : JhState) (r : Nat) (s : State) (b : Byte) :
    bufPush (s.withHidden x h r) b = (bufPush s b).withHidden x h r := by
  obtain ⟨alg, hs, sx, sh, buf, cnt, ph, data, resp, inb, rs⟩ := s
  by_cases hc : (buf ++ [b]).length = alg.blockSize
  · have full : ∀ s' : State, s'.buf = buf → s'.alg = alg →
        bufPush s' b = { transform { s' with buf := s'.buf ++ [b] } with buf := [] } := by
      intro s' e1 e2
      simp only [bufPush, State.pos, State.blockSize, e1, e2]
      rw [if_pos hc]
    rw [full _ rfl rfl, full _ rfl rfl]
    cases alg <;> simp [transform, State.withHidden]
  · have short : ∀ s' : State, s'.buf = buf → s'.alg = alg → bufPush s' b = { s' with buf := s'.buf ++ [b] } := by
      intro s' e1 e2
      simp only [bufPush, State.pos, State.blockSize, e1, e2]
      rw [if_neg hc]
    rw [short _ rfl rfl, short _ rfl rfl]
    cases alg <;> simp [State.withHidden]

theorem pushAll_withHidden (x : ChState) (h : JhState) (r : Nat) (bs : List Byte) : ∀ s : State,
    pushAll (s.withHidden x h r) bs = (pushAll s bs).withHidden x h r := by
  induction bs with
  | nil => intro s; rfl
  | cons b bs ih => intro s; rw [pushAll_cons, bufPush_withHidden, ih, pushAll_cons]

theorem finalise_withHidden (x : ChState) (h : JhState) (r : Nat) (s : State) :
    finalise (s.withHidden x h r) = (finalise s).withHidden x h r := by
  cases ha : s.alg with
  | cubehash =>
    have ha' : (s.withHidden x h r).alg = .cubehash := ha
    have e : pushAll (s.withHidden x h r) (chPad (s.withHidden x h r).pos) = (pushAll s (chPad s.pos)).withHidden x h r :=
      pushAll_withHidden ..
    simp only [finalise, ha', ha, chFinal, e]
    simp [State.withHidden, ha]
  | jh =>
    have ha' : (s.withHidden x h r).alg = .jh := ha
    have e : pushAll (s.withHidden x h r) (jhPad (s.withHidden x h r).pos (s.withHidden x h r).count) =
        (pushAll s (jhPad s.pos s.count)).withHidden x h r := pushAll_withHidden ..
    simp only [finalise, ha', ha, jhFinal, e]
    simp [State.withHidden, ha]

theorem digest_withHidden (x : ChState) (h : JhState) (r : Nat) (s : State) : digest (s.withHidden x h r) = digest s := by
  cases ha : s.alg <;> simp [digest, State.withHidden, ha]

/-- No command reads or writes what is hidden. -/
theorem exec_withHidden (i : Instr) (x : ChState) (h : JhState) (r : Nat) {s u : State} (he : exec i s = .next u) :
    exec i (s.withHidden x h r) = .next (u.withHidden x h r) := by
  have hphase : (s.withHidden x h r).phase = s.phase := rfl
  cases i with
  | init =>
    cases ha : s.alg with
    | cubehash =>
      rw [show exec .init s = _ from execInit_cubehash ha] at he
      injection he with he
      subst he
      rw [show exec .init (s.withHidden x h r) = _ from execInit_cubehash (by exact ha)]
      simp [State.withHidden, ha]
    | jh =>
      rw [show exec .init s = _ from execInit_jh ha] at he
      injection he with he
      subst he
      rw [show exec .init (s.withHidden x h r) = _ from execInit_jh (by exact ha)]
      simp [State.withHidden, ha]
  | absorb off len dlen =>
    rcases execAbsorb_cases he with ⟨hp, rfl⟩ | ⟨hp, hr, rfl⟩ | ⟨hp, hr, bs, hd, hl, rfl⟩
    · exact execAbsorb_misuse _ _ _ (by exact hp)
    · exact execAbsorb_outOfRange (by exact hp) hr
    · refine (execAbsorb_ok (s := s.withHidden x h r) (by exact hp) hr (by exact hd)).trans ?_
      rw [pushAll_withHidden]
      rfl
  | final =>
    simp only [exec, execFinal] at he ⊢
    rw [hphase]
    split at he <;> injection he with he <;> subst he
    · rw [if_pos ‹_›]
      rfl
    · rw [if_neg ‹_›, finalise_withHidden]
      rfl
  | tfinal =>
    simp only [exec, execTfinal] at he ⊢
    rw [hphase]
    split at he <;> injection he with he <;> subst he
    · rw [if_pos ‹_›]
      rfl
    · rw [if_neg ‹_›, finalise_withHidden, digest_withHidden]
      rfl
  | result =>
    simp only [exec, execResult] at he ⊢
    rw [hphase]
    split at he <;> injection he with he <;> subst he
    · rw [if_pos ‹_›]
      rfl
    · rw [if_neg ‹_›, digest_withHidden]
      rfl

/-! ## The phase

Pushing bytes and finalising do not read it. -/

theorem bufPush_withPhase (s : State) (p : Phase) (b : Byte) :
    bufPush { s with phase := p } b = { bufPush s b with phase := p } := by
  obtain ⟨alg, hs, sx, sh, buf, cnt, ph, data, resp, inb, rs⟩ := s
  by_cases hc : (buf ++ [b]).length = alg.blockSize
  · have full : ∀ s' : State, s'.buf = buf → s'.alg = alg →
        bufPush s' b = { transform { s' with buf := s'.buf ++ [b] } with buf := [] } := by
      intro s' e1 e2
      simp only [bufPush, State.pos, State.blockSize, e1, e2]
      rw [if_pos hc]
    rw [full _ rfl rfl, full _ rfl rfl]
    cases alg <;> rfl
  · have short : ∀ s' : State, s'.buf = buf → s'.alg = alg → bufPush s' b = { s' with buf := s'.buf ++ [b] } := by
      intro s' e1 e2
      simp only [bufPush, State.pos, State.blockSize, e1, e2]
      rw [if_neg hc]
    rw [short _ rfl rfl, short _ rfl rfl]

theorem pushAll_withPhase (bs : List Byte) (p : Phase) : ∀ s : State,
    pushAll { s with phase := p } bs = { pushAll s bs with phase := p } := by
  induction bs with
  | nil => intro s; rfl
  | cons b bs ih => intro s; rw [pushAll_cons, bufPush_withPhase, ih, pushAll_cons]

theorem finalise_withPhase (s : State) (p : Phase) : finalise { s with phase := p } = finalise s := by
  obtain ⟨alg, hs, sx, sh, buf, cnt, ph, data, resp, inb, rs⟩ := s
  cases alg with
  | cubehash =>
    have e := pushAll_withPhase (chPad buf.length) p ⟨.cubehash, hs, sx, sh, buf, cnt, ph, data, resp, inb, rs⟩
    simp only [finalise, chFinal, State.pos] at e ⊢
    rw [e]
  | jh =>
    have e := pushAll_withPhase (jhPad buf.length cnt) p ⟨.jh, hs, sx, sh, buf, cnt, ph, data, resp, inb, rs⟩
    simp only [finalise, jhFinal, State.pos] at e ⊢
    rw [e]

end Sys2Proof.Machine
end

