-- ==== Sys2Proof/Laws/JhConstants.lean ====
section
/-! SUPPORT. The 42 constants C_0 to C_41 of 43_jh_constants.md R194, evaluated one round at a time, so that a proof about the
generated round constants starts from numerals. -/

namespace Sys2Proof.Laws

open Sys2Proof.Machine

/-- The n 4-bit elements of a number, most significant first. -/
def nibbles (w : Nat) : Nat → List Nat
  | 0 => []
  | n + 1 => w / 16 ^ n % 16 :: nibbles w n

/-- C_0 to C_20, 64 elements each. -/
def constantsFirst : List Nat := [
  0x6A09E667F3BCC908B2FB1366EA957D3E3ADEC17512775099DA2F590B0667322A,
  0xBB896BF05955ABCD5281828D66E7D99AC4203494F89BF12817DEB43288712231,
  0x1836E76B12D79C55118A1139D2417DF52A2021225FF6350063D88E5F1F91631C,
  0x263085A7000FA9C3317C6CA8AB65F7A7713CF4201060CE886AF855A90D6A4EED,
  0x1CEBAFD51A156AEB62A11FB3BE2E14F60B7E48DE85814270FD62E97614D7B441,
  0xE5564CB574F7E09C75E2E244929E9549279AB224A28E445D57185E7D7A09FDC1,
  0x5820F0F0D764CFF3A5552A5E41A82B9EFF6EE0AA615773BB07E8603424C3CF8A,
  0xB126FB741733C5BFCEF6F43A62E8E5706A26656028AA897EC1EA4616CE8FD510,
  0xDBF0DE32BCA77254BB4F562581A3BC991CF94F225652C27F14EAE958AE6AA616,
  0xE6113BE617F45F3DE53CFF03919A94C32C927B093AC8F23B47F7189AADB9BC67,
  0x80D0D26052CA45D593AB5FB3102506390083AFB5FFE107DACFCBA7DBE601A12B,
  0x43AF1C76126714DFA950C368787C81AE3BEECF956C85C962086AE16E40EBB0B4,
  0x9AEE8994D2D74A5CDB7B1EF294EED5C1520724DD8ED58C92D3F0E174B0C32045,
  0x0B2AA58CEB3BDB9E1EEF66B376E0C565D5D8FE7BACB8DA866F859AC521F3D571,
  0x7A1523EF3D970A3A9B0B4D610E02749D37B8D57C1885FE4206A7F338E8356866,
  0x2C2DB8F7876685F2CD9A2E0DDB64C9D5BF13905371FC39E0FA86E1477234A297,
  0x9DF085EB2544EBF62B50686A71E6E828DFED9DBE0B106C9452CEDDFF3D138990,
  0xE6E5C42CB2D460C9D6E4791A1681BB2E222E54558EB78D5244E217D1BFCF5058,
  0x8F1F57E44E126210F00763FF57DA208A5093B8FF7947534A4C260A17642F72B2,
  0xAE4EF4792EA148608CF116CB2BFF66E8FC74811266CD641112CD17801ED38B59,
  0x91A744EFBF68B192D0549B608BDB3191FC12A0E83543CEC5F882250B244F78E4]

/-- C_21 to C_41. -/
def constantsSecond : List Nat := [
  0x4B5D27D3368F9C17D4B2A2B216C7E74E7714D2CC03E1E44588CD9936DE74357C,
  0x0EA17CAFB8286131BDA9E3757B3610AA3F77A6D0575053FC926EEA7E237DF289,
  0x848AF9F57EB1A616E2C342C8CEA528B8A95A5D16D9D87BE9BB3784D0C351C32B,
  0xC0435CC3654FB85DD9335BA91AC3DBDE1F85D567D7AD16F9DE6E009BCA3F95B5,
  0x927547FE5E5E45E2FE99F1651EA1CBF097DC3A3D40DDD21CEE260543C288EC6B,
  0xC117A3770D3A34469D50DFA7DB020300D306A365374FA828C8B780EE1B9D7A34,
  0x8FF2178AE2DBE5E872FAC789A34BC228DEBF54A882743CAAD14F3A550FDBE68F,
  0xABD06C52ED58FF091205D0F627574C8CBC1FE7CF79210F5A2286F6E23A27EFA0,
  0x631F4ACB8D3CA4253E301849F157571D3211B6C1045347BEFB7C77DF3C6CA7BD,
  0xAE88F2342C23344590BE2014FAB4F179FD4BF7C90DB14FA4018FCCE689D2127B,
  0x93B89385546D71379FE41C39BC602E8B7C8B2F78EE914D1F0AF0D437A189A8A4,
  0x1D1E036ABEEF3F44848CD76EF6BAA889FCEC56CD7967EB909A464BFC23C72435,
  0xA8E4EDE4C5FE5E88D4FB192E0A0821E935BA145BBFC59C2508282755A5DF53A5,
  0x8E4E37A3B970F079AE9D22A499A714C875760273F74A9398995D32C05027D810,
  0x61CFA42792F93B9FDE36EB163E978709FAFA7616EC3C7DAD0135806C3D91A21B,
  0xF037C5D91623288B7D0302C1B941B72676A943B372659DCD7D6EF408A11B40C0,
  0x2A306354CA3EA90B0E97EAEBCEA0A6D7C6522399E885C613DE824922C892C490,
  0x3CA6CDD788A5BDC5EF2DCEEB16BCA31E0A0D2C7E9921B6F71D33E25DD2F3CF53,
  0xF72578721DB56BF8F49538B0AE6EA470C2FB1339DD26333F135F7DEF45376EC0,
  0xE449A03EAB359E34095F8B4B55CD7AC7C0EC6510F2C4CC79FA6B1FEE6B18C59E,
  0x73BD6978C59F2B219449B36770FB313FBE2DA28F6B04275F071A1B193DDE2072]

/-- C_0 to C_41. -/
def constants : List Nat := constantsFirst ++ constantsSecond

/-- Each number is the round function of the one before it. -/
def risesByRound6 : Nat → List Nat → Bool
  | _, [] => true
  | a, b :: rest => decide (jhRound6 (nibbles a 64) = nibbles b 64) && risesByRound6 b rest

/-- A list that rises by the round function is `jhConstants`. -/
theorem jhConstants_of_rises (rest : List Nat) : ∀ a : Nat, risesByRound6 a rest = true →
    jhConstants (rest.length + 1) (nibbles a 64) = (a :: rest).map fun w => nibbles w 64 := by
  induction rest with
  | nil => intro a _; rfl
  | cons b rest ih =>
    intro a h
    simp only [risesByRound6, Bool.and_eq_true, decide_eq_true_eq] at h
    rw [List.length_cons, jhConstants, h.1, ih b h.2]
    rfl

theorem constants_rise : risesByRound6 (constants.headD 0) constants.tail = true := by decide +kernel

/-- The constants of R194, one round after another from C_0. -/
theorem jhConstants_eq : jhConstants 42 jhC0 = constants.map fun w => nibbles w 64 := by
  have h := jhConstants_of_rises constants.tail (constants.headD 0) constants_rise
  rwa [show constants.tail.length + 1 = 42 from rfl, show nibbles (constants.headD 0) 64 = jhC0 by decide +kernel] at h

end Sys2Proof.Laws
end

