-- ==== Sys2Proof/Laws/PerInstr.lean ====
section
/-! SUPPORT. What holds of every command as syntax, one lemma for each constructor of Instr. -/

/-! ## OpcodeField: the encoder puts the command's opcode in `CMD[7:0]` (30_encoding.md R80, R85) -/

def Sys2Proof.Laws.OpcodeField.Statement (i : Sys2Proof.Instr) : Prop := (Sys2Proof.encode i).op = i.opcode

theorem Sys2Proof.Laws.OpcodeField.init : Sys2Proof.Laws.OpcodeField.Statement .init := Sys2Proof.op_formatN 0x01

theorem Sys2Proof.Laws.OpcodeField.absorb (off len dlen : Int) :
    Sys2Proof.Laws.OpcodeField.Statement (.absorb off len dlen) := Sys2Proof.op_formatA 0x02 off len dlen

theorem Sys2Proof.Laws.OpcodeField.final : Sys2Proof.Laws.OpcodeField.Statement .final := Sys2Proof.op_formatN 0x03

theorem Sys2Proof.Laws.OpcodeField.result : Sys2Proof.Laws.OpcodeField.Statement .result := Sys2Proof.op_formatN 0x04

theorem Sys2Proof.Laws.OpcodeField.tfinal : Sys2Proof.Laws.OpcodeField.Statement .tfinal := Sys2Proof.op_formatN 0x05
end

