-- ==== Sys2Proof/Laws/Streams.lean ====
section
/-! SUPPORT. What one event of a stream does to an instance that holds a message: `INIT` starts the empty message, an event that
delivers bytes appends them, `TFINAL` closes the message (40_block_buffer.md R107, R108). -/

namespace Sys2Proof.Machine

/-- The instance has absorbed the message `m` since `INIT`: the engine is the IV transformed by the complete blocks, the
buffer holds the rest and `COUNT` is the length. -/
structure State.HoldsMessage (a : Alg) (h : HashSize) (m : List Byte) (t : State) : Prop where
  alg : t.alg = a
  hs : t.hashSize = h
  phase : t.phase = .ready ∨ t.phase = .absorbing
  x : a = .cubehash → t.x = chAbsorbBlocks (completeBlocks 32 m) (chIv h)
  hh : a = .jh → t.h = jhAbsorbBlocks (completeBlocks 64 m) (jhIv h)
  buf : t.buf = lastBytes a.blockSize m
  count : t.count.toNat = m.length

variable {a : Alg} {h : HashSize} {m : List Byte} {t : State}

theorem State.HoldsMessage.pos_eq (H : t.HoldsMessage a h m) : t.pos = m.length % a.blockSize := by
  rw [State.pos, H.buf, length_lastBytes]

theorem State.HoldsMessage.pos_lt (H : t.HoldsMessage a h m) : t.pos < a.blockSize := by
  rw [H.pos_eq]
  exact Nat.mod_lt _ (blockSize_pos _)

theorem State.HoldsMessage.admits (H : t.HoldsMessage a h m) : t.phase.admitsInput = true :=
  (admitsInput_eq_true _).mpr H.phase

/-- Accepting a command changes no register. -/
theorem State.HoldsMessage.accept (H : t.HoldsMessage a h m) (c : Command) (rest : List HostEvent) :
    (accept t c rest).HoldsMessage a h m :=
  ⟨H.alg, H.hs, H.phase, H.x, H.hh, H.buf, H.count⟩

/-- Taking an error changes no register. -/
theorem State.HoldsMessage.raise (H : t.HoldsMessage a h m) (e : ErrorKind) : (t.raise e).HoldsMessage a h m :=
  ⟨H.alg, H.hs, H.phase, H.x, H.hh, H.buf, H.count⟩

/-- Pushing bytes and counting them appends them to the message. -/
theorem State.HoldsMessage.push (H : t.HoldsMessage a h m) {m' : List Byte} (hlt : (m ++ m').length < 2 ^ 61)
    (r : Option Response) : State.HoldsMessage a h (m ++ m')
      { pushAll t m' with count := countAfter t.count m'.length, phase := .absorbing, response := r } := by
  have hcount : (countAfter t.count m'.length).toNat = (m ++ m').length := by
    rw [List.length_append] at hlt ⊢
    rw [countAfter_below (by rw [H.count]; exact hlt), H.count]
  have hp := H.pos_lt
  have hbuf := H.buf
  obtain ⟨hblocks, hlast⟩ := completeBlocks_split (blockSize_pos a) m m'
  rcases alg_eq_or a with rfl | rfl
  · simp only [Alg.blockSize] at hp hbuf hblocks hlast
    rw [pushAll_cubehash m' H.alg hp, hbuf, ← hlast]
    exact ⟨H.alg, H.hs, .inr rfl, fun _ => by
      rw [hblocks, chAbsorbBlocks_append, ← H.x rfl],
      fun e => (by cases e), rfl, hcount⟩
  · simp only [Alg.blockSize] at hp hbuf hblocks hlast
    rw [pushAll_jh m' H.alg hp, hbuf, ← hlast]
    exact ⟨H.alg, H.hs, .inr rfl, fun e => (by cases e),
      fun _ => by
      rw [hblocks, jhAbsorbBlocks_append, ← H.hh rfl], rfl, hcount⟩

/-! ## INIT -/

/-- `INIT` starts the empty message, from any state (R102). -/
theorem step_present_init {rest : List HostEvent} (hin : t.inbox = present .init [] :: rest) :
    ∃ u, step t = .next u ∧ u.HoldsMessage t.alg t.hashSize [] ∧ u.inbox = rest := by
  have hdec : decode (encode .init) = .ok .init := by decide
  have hst : step t = execInit (accept t ⟨encode .init, Memory.ofBytes []⟩ rest) := by
    simp only [step, hin, present, hdec, exec]
  have hblocks : ∀ n, 0 < n → completeBlocks n [] = [] := fun n hn => completeBlocks_short (by simpa using hn)
  have hlast : [] = lastBytes t.alg.blockSize [] := (lastBytes_short (by simpa using blockSize_pos _)).symm
  rcases alg_eq_or t.alg with ha | ha
  · refine ⟨_, hst.trans (execInit_cubehash (by exact ha)), ⟨rfl, rfl, .inl rfl, fun _ => ?_, fun e => ?_, hlast, rfl⟩, rfl⟩
    · rw [hblocks 32 (by omega)]
      rfl
    · rw [ha] at e
      cases e
  · refine ⟨_, hst.trans (execInit_jh (by exact ha)), ⟨rfl, rfl, .inl rfl, fun e => ?_, fun _ => ?_, hlast, rfl⟩, rfl⟩
    · rw [ha] at e
      cases e
    · rw [hblocks 64 (by omega)]
      rfl

/-! ## ABSORB -/

/-- An encoded `ABSORB` whose operands fit decodes to itself. -/
theorem decode_encode_absorb {off len dlen : Int} (h1 : inSigned32 off = true) (h2 : inSigned32 len = true)
    (h3 : inSigned32 dlen = true) : decode (encode (.absorb off len dlen)) = .ok (.absorb off len dlen) := by
  simp only [encode, decode, op_formatA]
  rw [if_neg (by decide), if_pos trivial, decodeA_zero (zeroA_formatA ..)]
  simp only [off_formatA, len_formatA, dlen_formatA, toInt_ofInt_signed32, h1, h2, h3]

/-- The window of a DATA array reads as the bytes in it. -/
theorem readRange_window (before bytes after : List Byte) :
    Memory.readRange (Memory.ofBytes (before ++ bytes ++ after)) before.length bytes.length = some bytes := by
  rw [Memory.readRange_eq_some]
  refine ⟨rfl, fun k hk => ?_⟩
  rw [Memory.read_ofBytes]
  simp [hk, List.getElem?_append_right, List.getElem?_append_left]

/-- An event that delivers bytes appends them to the message. -/
theorem step_delivers {m' : List Byte} {e : HostEvent} {rest : List HostEvent} (H : t.HoldsMessage a h m)
    (hd : Delivers e m') (hlt : (m ++ m').length < 2 ^ 61) (hin : t.inbox = e :: rest) :
    ∃ u, step t = .next u ∧ u.HoldsMessage a h (m ++ m') ∧ u.inbox = rest := by
  rcases hd with ⟨before, after, hl, rfl⟩ | ⟨rfl, c, off, len, dlen, rfl, hdec, hr⟩
  · have hl' : before.length + m'.length + after.length < 2147483648 := by
      simpa [Nat.add_assoc] using hl
    have hfit : ∀ n : Nat, n < 2147483648 → inSigned32 (n : Int) = true := fun n hn => by
      simp only [inSigned32, decide_eq_true_eq]
      omega
    have hdec := decode_encode_absorb (hfit before.length (by omega)) (hfit m'.length (by omega)) (hfit _ hl)
    have hrange : rangeOk before.length m'.length (before ++ m' ++ after).length = true := by
      rw [rangeOk_eq_true]
      simp
    obtain ⟨c, hc⟩ : ∃ c : Command, c = ⟨encode (.absorb before.length m'.length (before ++ m' ++ after).length),
      Memory.ofBytes (before ++ m' ++ after)⟩ := ⟨_, rfl⟩
    have hst : step t = execAbsorb before.length m'.length (before ++ m' ++ after).length (accept t c rest) := by
      simp only [step, hin, absorbWindow, present, hdec, exec, hc]
    have hdata : Memory.readRange (accept t c rest).data (before.length : Int).toNat (m'.length : Int).toNat = some m' := by
      rw [State.accept_data, hc]
      exact readRange_window before m' after
    obtain ⟨x, y, buf, e, -⟩ := pushAll_frame m' (Machine.accept t c rest)
    refine ⟨_, hst.trans (execAbsorb_ok (H.accept c rest).admits hrange hdata), (H.accept c rest).push hlt _, ?_⟩
    rw [e]
    rfl
  · refine ⟨(Machine.accept t c rest).raise .outOfRange, ?_, ?_, rfl⟩
    · simp only [step, hin, hdec]
      exact execAbsorb_outOfRange (H.accept c rest).admits ((rangeOk_eq_false _ _ _).mpr hr)
    · rw [List.append_nil]
      exact (H.accept c rest).raise .outOfRange

/-! ## TFINAL -/

/-- The digest of the finalised state is the digest of the message (R139, R173). -/
theorem State.HoldsMessage.digest_finalise (H : t.HoldsMessage a h m) :
    digest (finalise t) = messageDigest a h m := by
  have hp := H.pos_lt
  have hpos := H.pos_eq
  rcases alg_eq_or a with rfl | rfl
  · simp only [Alg.blockSize] at hp hpos
    rw [finalise_cubehash H.alg hp]
    simp only [digest, H.alg, messageDigest, chMessageDigest]
    rw [hpos, H.hs, H.x rfl, H.buf]
    rfl
  · simp only [Alg.blockSize] at hp hpos
    have hbits : jhBitLength t.count = BitVec.ofNat 64 (8 * m.length) := by
      apply BitVec.eq_of_toNat_eq
      rw [jhBitLength, BitVec.toNat_mul, H.count, BitVec.toNat_ofNat]
      simp
      omega
    by_cases h0 : t.pos = 0
    · rw [finalise_jh_zero H.alg h0]
      simp only [digest, H.alg, messageDigest, jhMessageDigest, jhLastBlocks, jhPad_zero]
      rw [if_pos (by omega), hbits, H.hs, H.hh rfl]
      simp only [jhAbsorbBlocks_append, jhAbsorbBlocks_cons, jhAbsorbBlocks_nil, List.cons_append]
    · rw [finalise_jh_pos H.alg (by omega) hp]
      simp only [digest, H.alg, messageDigest, jhMessageDigest, jhLastBlocks]
      rw [if_neg (by omega), hbits, H.hs, H.hh rfl, hpos, H.buf]
      simp only [jhAbsorbBlocks_append, jhAbsorbBlocks_cons, jhAbsorbBlocks_nil, Alg.blockSize]

end Sys2Proof.Machine
end

