-- ==== Sys2Proof/Tests/Slice0.lean ====
section
/-! SUPPORT. The model's own tests. Expected results are the spec's (95_test_vectors.md and the examples of the rules), never the
model's own answers. The second half shows, for every statement with hypotheses, values that meet them. -/

namespace Sys2Proof.Tests

open Sys2Proof.Machine Sys2Proof.Laws

/-- A small state: a 256-bit instance in a phase, with pending bytes, a count and a DATA array. -/
def stateAt (a : Alg) (p : Phase) (buf : List Byte) (count : Word64) (data : List Byte) : State :=
  { State.powerOn a .b32 with phase := p, buf := buf, count := count, data := Memory.ofBytes data }

/-- That state with descriptors presented, each with its DATA array. -/
def presented (s : State) (ds : List (Descriptor × List Byte)) : State :=
  { s with inbox := ds.map fun p => .command ⟨p.1, Memory.ofBytes p.2⟩ }

/-- The status of an outcome, if it is a next state with a response. -/
def statusOf (o : Host.Outcome State Fault Refusal) : Option Status :=
  match o with
  | .next t => t.response.map (·.status)
  | .fault _ => none
  | .refused _ => none

/-- A field of the next state. -/
def fieldOf {α : Type} (f : State → α) (o : Host.Outcome State Fault Refusal) : Option α :=
  match o with
  | .next t => some (f t)
  | .fault _ => none
  | .refused _ => none

/-! ## Well-formedness: each check refuses an ill-formed term (R84) -/

theorem test_off_above_range : (Instr.absorb 2147483648 0 0).wellFormed = false := by decide
theorem test_off_below_range : (Instr.absorb (-2147483649) 0 0).wellFormed = false := by decide
theorem test_len_above_range : (Instr.absorb 0 2147483648 0).wellFormed = false := by decide
theorem test_len_below_range : (Instr.absorb 0 (-2147483649) 0).wellFormed = false := by decide
theorem test_dlen_above_range : (Instr.absorb 0 0 2147483648).wellFormed = false := by decide
theorem test_dlen_below_range : (Instr.absorb 0 0 (-2147483649)).wellFormed = false := by decide

/-! ## Decoding: words written out from R80 and R85 (95_test_vectors.md 5.1, 5.2) -/

theorem test_decode_init : decode 0x00000000000000000000000000000001 = .ok .init := by decide
theorem test_decode_absorb : decode 0x00000003000000010000000200000002 = .ok (.absorb 2 1 3) := by decide
theorem test_decode_absorb_signed :
    decode 0xFFFFFFFF800000007FFFFFFF00000002 = .ok (.absorb 2147483647 (-2147483648) (-1)) := by decide
theorem test_decode_final : decode 0x00000000000000000000000000000003 = .ok .final := by decide
theorem test_decode_result : decode 0x00000000000000000000000000000004 = .ok .result := by decide
theorem test_decode_tfinal : decode 0x00000000000000000000000000000005 = .ok .tfinal := by decide

/-- The illegal descriptors of 5.2. -/
theorem test_decode_illegal : [0x0, 0x7, 0xFF, 0x101, 0x00000000000000000000000100000003,
    0x80000000000000000000000000000004, 0x00000004FFFFFFFF0000000000000102].map
      (fun d => (decode d).toOption) = List.replicate 7 none := by decide

/-- Table words: the bits above the row's width count as zero. -/
theorem test_table_word : decodeTableWord 128 2 = some (.absorb 0 0 0) ∧ decodeTableWord 32 0x1FFFFFFFF00000003 = some .final := by decide

/-- No two rows of the opcode map cover one descriptor: they differ in the bits both fix. -/
theorem test_rows_disjoint :
    opcodeRows.Pairwise fun r s => r.pattern &&& (r.mask &&& s.mask) ≠ s.pattern &&& (r.mask &&& s.mask) := by decide

/-- A stored descriptor: `OP` at the lowest address, `DLEN` last (R83). -/
theorem test_stored_bytes : Descriptor.bytes 0x00000003000000010000000200000002 =
    [2, 0, 0, 0, 2, 0, 0, 0, 1, 0, 0, 0, 3, 0, 0, 0] := by decide

/-! ## Primitives (00_scope.md R12, R13) -/

/-- `add32` drops the carry; `rotl32` by 7 moves bit 31 to bit 6 and bit 25 to bit 0 (R131). -/
theorem test_word32 : add32 0xFFFFFFFF 0xFFFFFFFF = 0xFFFFFFFE ∧ rotl32 0x80000000 7 = 0x40 ∧ rotl32 0x02000000 7 = 1 := by decide

/-- V-CH5's and V-JH6's first words, and the big-endian length of "abc" (R171). -/
theorem test_byte_order : le32 0 1 2 3 = 0x03020100 ∧ le64 0 1 2 3 4 5 6 7 = 0x0706050403020100 ∧
    unbe64 (jhBitLength 3) = [0, 0, 0, 0, 0, 0, 0, 0x18] := by decide

/-! ## The engines (95_test_vectors.md 2.1, 2.2) -/

/-- V-CH3. -/
theorem test_ch_round : chLists (chRound (Vector.ofFn fun i : Fin 32 => if i.val = 0 then 1 else 0)) = ⟨
    [1, 0, 1, 0, 0x800, 0, 0, 0, 0x80, 0, 0, 0, 0x40000, 0, 0, 0],
    [0, 1, 0, 1, 0, 0, 0, 0, 0, 0x80, 0, 0, 0, 0, 0, 0]⟩ := by
  rw [chLists_chRound]
  decide

/-- V-CH4. -/
theorem test_ch_round_carry : chLists (chRound (Vector.replicate 32 0xFFFFFFFF)) =
    ⟨List.replicate 16 0xFFFFF7FF, List.replicate 16 0xFFFFFFFF⟩ := by
  rw [chLists_chRound]
  decide

/-- V-CH9: the check words of `CH_IV[64]`. -/
theorem test_ch_iv : (chIv .b64).toList.take 4 = [0x2AEA2A61, 0x50F494D4, 0x2D538B8B, 0x4167D83E] := by decide

/-- V-JH1b. -/
theorem test_jh_ss : jhSS ⟨0x0123456789ABCDEF, 0xFEDCBA9876543210, 0x0F1E2D3C4B5A6978, 0x8796A5B4C3D2E1F0,
    0x1111111111111111, 0x2222222222222222, 0x4444444444444444, 0x8888888888888888⟩
      0x00000000FFFFFFFF 0xAAAAAAAAAAAAAAAA =
    ⟨0xF6D4B29042712417, 0xF7D6B7B435275767, 0x0F1E2D3C80A18487, 0x7E7D7A5B76753617,
      0x8888888888888888, 0xEEEEEEEEEEEEEEEE, 0x0000000000000000, 0x3333333333333333⟩ := by decide

/-- V-JH2. -/
theorem test_jh_l : jhL ⟨0x0123456789ABCDEF, 0xFEDCBA9876543210, 0x0F1E2D3C4B5A6978, 0x8796A5B4C3D2E1F0,
    0x1111111111111111, 0x2222222222222222, 0x4444444444444444, 0x8888888888888888⟩ =
    ⟨0x2C1F4A79E0D386B5, 0x3C2D1E0F78695A4B, 0x69784B5A2D3C0F1E, 0x685B0E3DA497C2F1,
      0xEFCDAB8967452301, 0x2D3C0F1E69784B5A, 0xC2F1A4970E3D685B, 0x89ABCDEF01234567⟩ := by decide

/-- V-JH3. -/
theorem test_jh_swap : [1, 2, 4, 8, 16, 32].map (jhSwap 0x0123456789ABCDEF) = [0x02138A9B4657CEDF, 0x048C159D26AE37BF,
    0x1032547698BADCFE, 0x23016745AB89EFCD, 0x45670123CDEF89AB, 0x89ABCDEF01234567] := by decide

/-- V-JH4, R = 0. -/
theorem test_jh_round_swap : (jhRound jhRc 0 (Vector.ofFn fun k : Fin 16 => BitVec.ofNat 64 k)).toList = [
    0xFFFFFFFFFFFFFFF1, 0xFFFFFFFFFFFFFFF2, 0x06B45A719F16A8B5, 0x7FE81D3C3570907B,
    0x917F4F9232087EF9, 0x173EF274CF5A1B3E, 0x9BF42AEF51EDEABC, 0xAB2A137B052A48BF,
    0x0978A5B26F295474, 0xBFD42E3C3AB060B4, 0x62BF8F613104BDFE, 0x2B3DF1B8CFA52731,
    0xF6875A4D90D6AB81, 0x402BD1C3C54F9F4D, 0x9BF42AEF51EDEAB8, 0xAB2A137B052A48B2] := by decide +kernel

/-- V-JH4, R = 6: the word swap. -/
theorem test_jh_round_word_swap : (jhRound jhRc 6 (Vector.ofFn fun k : Fin 16 => BitVec.ofNat 64 k)).toList = [
    0xFFFFFFFFFFFFFFF3, 0xFFFFFFFFFFFFFFF3, 0xEBBD803FB98D3872, 0x939647077E8C0173,
    0x4359BB23B6F670CA, 0x8128E03B6BFFA0AB, 0x956A9FFB2D8D672E, 0x2F3003DB37858E4E,
    0x939647077E8C0175, 0xEBBD803FB98D3874, 0x8128E03B6BFFA0A6, 0x4359BB23B6F670C6,
    0x6C69B8F88173FE88, 0x14427FC04672C788, 0x956A9FFB2D8D6725, 0x2F3003DB37858E44] := by decide +kernel

/-! ## The commands -/

/-- `INIT` right after reset: accepted, and `X` is `CH_IV[32]` (R102). -/
theorem test_init_from_reset :
    fieldOf (fun t => (t.response, t.phase, t.pos, t.count, t.x.toList.take 2)) (step (State.reset.withFetchWord 128 1)) =
      some (some ⟨.ok, []⟩, .ready, 0, 0, [0xEA2BD4B4, 0xCCD6F29F]) := by decide

/-- `INIT` of a JH instance in `Finalized`: `H` is `JH_IV[32]` and `X` stays (R102, R23). -/
theorem test_init_jh :
    fieldOf (fun t => (t.phase, t.h.toList.take 1, t.x.toList.take 1)) (exec .init (stateAt .jh .finalized [] 7 [])) =
      some (.ready, [0xEBD3202C41A398EB], [0]) := by decide

/-- V-BUF1, second row for JH: 27 bytes after 5 leave 32 pending and no transform. -/
theorem test_absorb_pending :
    fieldOf (fun t => (t.phase, t.pos, t.count, t.h.toList.take 1))
        (exec (.absorb 5 27 200) (stateAt .jh .absorbing [0, 1, 2, 3, 4] 5 ((List.range 200).map (BitVec.ofNat 8)))) =
      some (.absorbing, 32, 32, [0]) := by decide +kernel

/-- The range check of 5.1, row by row, in `Ready`. -/
theorem test_absorb_range : [(0, 0, 0), (0, 3, 3), (3, 0, 3), (2, 1, 3), (4, 0, 3), (1, 3, 3), (0, 1, 0), (-1, 1, 3),
    (0, -1, 3), (-1, -1, 3), (2147483647, 1, 2147483647), (2147483647, 2147483647, 2147483647), (0, 0, -1),
    (-2147483648, -2147483648, 0)].map
      (fun p : Int × Int × Int => statusOf (exec (.absorb p.1 p.2.1 p.2.2) (stateAt .cubehash .ready [] 0 [97, 98, 99]))) =
    List.replicate 4 (some .ok) ++ List.replicate 10 (some (.error .outOfRange)) := by decide

/-- `FINAL` of a JH instance is Misuse in `Uninitialized` and `Finalized` (5.2). -/
theorem test_final_misuse : statusOf (exec .final (stateAt .jh .uninitialized [] 0 [])) = some (.error .misuse) ∧
    statusOf (exec .final (stateAt .jh .finalized [] 0 [])) = some (.error .misuse) := by decide

/-- `RESULT` before finalisation (5.2), and the digest bytes of V-CH7's first two words. -/
theorem test_result : statusOf (exec .result (stateAt .jh .absorbing [] 0 [])) = some (.error .misuse) ∧
    fieldOf (fun t => t.response.map fun r => r.payload.take 8)
      (exec .result { stateAt .cubehash .finalized [] 0 [] with
        x := Vector.ofFn fun i : Fin 32 => if i.val = 0 then 0x3ADEC644 else if i.val = 1 then 0x393CC7C6 else 0 }) =
      some (some [0x44, 0xC6, 0xDE, 0x3A, 0xC6, 0xC7, 0x3C, 0x39]) := by decide +kernel

/-- R172's corner: the 224-bit JH digest starts at bits 39:32 of `H[12]`. -/
theorem test_jh_result_28 : (jhResult .b28 (Vector.ofFn fun k : Fin 16 =>
    if k.val = 12 then 0x0807060504030201 else 0)).take 5 = [5, 6, 7, 8, 0] := by decide

/-- `TFINAL` after finalisation (5.2). -/
theorem test_tfinal_misuse : statusOf (exec .tfinal (stateAt .cubehash .finalized [] 0 [])) = some (.error .misuse) := by decide

/-- `TFINAL` in `Ready` of a JH-256 instance: the digest of the empty message (section 3.2). -/
theorem test_tfinal_jh_empty :
    fieldOf (fun t => (t.phase, t.response.map fun r => r.payload.take 4))
        (exec .tfinal { stateAt .jh .ready [] 0 [] with h := jhIv .b32 }) =
      some (.finalized, some [0x46, 0xE6, 0x46, 0x19]) := by decide +kernel

/-- V-CH7: `X` after `FINAL` of the empty message begins `3ADEC644 393CC7C6`. -/
theorem test_final_ch_empty : (chLists (chClose (chBlock (chLoad (chPad 0)) (chIv .b32)))).lo.take 2 =
    [0x3ADEC644, 0x393CC7C6] := by
  rw [chLists_chClose, chLists_chBlock]
  decide +kernel

/-- Priority (R204): an illegal descriptor with a negative `LEN` in `Uninitialized`; a negative `LEN` in `Finalized`. -/
theorem test_priority :
    statusOf (step (presented (stateAt .cubehash .uninitialized [] 0 []) [(0x00000004FFFFFFFF0000000000000102, [])])) =
      some (.error .illegalCommand) ∧
    statusOf (step (presented (stateAt .cubehash .finalized [] 0 []) [(0x00000005FFFFFFFF0000000000000002, [])])) =
      some (.error .misuse) := by decide

/-- The reset input in mid-message: Uninitialized, no response (R230). -/
theorem test_reset_input :
    fieldOf (fun t => (t.phase, t.response)) (step { stateAt .jh .absorbing [1] 1 [] with inbox := [.resetInput] }) =
      some (.uninitialized, none) := by decide

/-! ## Witnesses: values that meet the hypotheses of the statements, each clause at a boundary of its range -/

theorem witness_DecodeOfEncodeIsTheCommand : (Instr.absorb (-2147483648) 2147483647 (-1)).wellFormed = true := by decide

theorem witness_EncodeOfDecodeIsTheDescriptor : ∃ i, decode 0x8000000000000000FFFFFFFF00000002 = .ok i := ⟨_, rfl⟩

theorem witness_IllegalDescriptorsAreTheListedOnes :
    (Descriptor.op 0x0 = 0) ∧ (6 ≤ (Descriptor.op 0x6).toNat) ∧ (6 ≤ (Descriptor.op 0xFF).toNat) ∧
    (Descriptor.op 0x101 = 1 ∧ Descriptor.zeroN 0x101 ≠ 0) ∧
    (Descriptor.op 0x80000000000000000000000000000003 = 3 ∧ Descriptor.zeroN 0x80000000000000000000000000000003 ≠ 0) ∧
    (Descriptor.op 0x104 = 4 ∧ Descriptor.zeroN 0x104 ≠ 0) ∧ (Descriptor.op 0x105 = 5 ∧ Descriptor.zeroN 0x105 ≠ 0) ∧
    (Descriptor.op 0x102 = 2 ∧ Descriptor.zeroA 0x102 ≠ 0) ∧
    (Descriptor.op 0x5 = 5 ∧ Descriptor.zeroN 0x5 = 0) ∧
    (presented State.reset [(0x0, [])]).inbox = [.command ⟨0x0, []⟩] := by decide

theorem witness_AbsorbOperandsAreSignedIntegers : Descriptor.op 0x7FFFFFFF80000000FFFFFFFF00000002 = 2 ∧
    Descriptor.zeroA 0x7FFFFFFF80000000FFFFFFFF00000002 = 0 := by decide

theorem witness_StepRunsThePresentedCommand : (presented State.reset [(0x1, [])]).inbox = [.command ⟨0x1, []⟩] ∧
    decode 0x1 = .ok .init := by decide

theorem witness_StepWithNothingPresentedWaits : State.reset.inbox = [] := rfl

theorem witness_ResetInputLeavesUninitialized :
    ({ stateAt .jh .absorbing [1] 1 [] with inbox := [.resetInput] } : State).inbox = [.resetInput] ∧
    (stateAt .jh .absorbing [1] 1 []).alg = .jh ∧ (stateAt .cubehash .absorbing [1] 1 []).alg = .cubehash := by decide

theorem witness_InitStartsAnEmptyMessage : (stateAt .cubehash .finalized [1] 1 []).alg = .cubehash ∧
    (stateAt .jh .absorbing [1] 1 []).alg = .jh ∧ Descriptor.op 0x101 = 1 ∧ Descriptor.zeroN 0x101 ≠ 0 := by decide

theorem witness_InitStartsAnEmptyMessage_twice : ∃ t, exec .init (stateAt .jh .absorbing [1] 1 []) = .next t := ⟨_, rfl⟩

/-- Pending bytes one short of a block, `OFF` + `LEN` = `DLEN`, `COUNT` at the bound. -/
theorem witness_AbsorbAbsorbsTheRange :
    (Descriptor.op 0x102 = 2 ∧ Descriptor.zeroA 0x102 ≠ 0) ∧
    ((stateAt .cubehash .finalized [] 0 []).phase ≠ .ready ∧ (stateAt .cubehash .finalized [] 0 []).phase ≠ .absorbing) ∧
    ((stateAt .cubehash .ready [] 0 []).phase = .ready ∧ ((-1 : Int) < 0 ∨ (1 : Int) < 0 ∨ (-1 : Int) + 1 > 3)) ∧
    ((stateAt .cubehash .ready [] 0 []).phase = .ready ∧ ((0 : Int) < 0 ∨ (-1 : Int) < 0 ∨ (0 : Int) + -1 > 3)) ∧
    ((stateAt .cubehash .absorbing [] 0 []).phase = .absorbing ∧ ((3 : Int) < 0 ∨ (1 : Int) < 0 ∨ (3 : Int) + 1 > 3)) ∧
    ((stateAt .cubehash .absorbing (List.replicate 31 7) 0x1FFFFFFFFFFFFFFE [97, 98, 99]).phase = .absorbing ∧
      (0 : Int) ≤ 2 ∧ (0 : Int) ≤ 1 ∧ (2 : Int) + 1 ≤ 3 ∧
      (stateAt .cubehash .absorbing (List.replicate 31 7) 0x1FFFFFFFFFFFFFFE [97, 98, 99]).pos <
        (stateAt .cubehash .absorbing (List.replicate 31 7) 0x1FFFFFFFFFFFFFFE [97, 98, 99]).blockSize ∧
      ([99] : List Byte).length = (1 : Int).toNat ∧
      (∀ k, k < (1 : Int).toNat →
        Memory.read (stateAt .cubehash .absorbing (List.replicate 31 7) 0x1FFFFFFFFFFFFFFE [97, 98, 99]).data ((2 : Int).toNat + k) =
          ([99] : List Byte)[k]?) ∧
      (stateAt .cubehash .absorbing (List.replicate 31 7) 0x1FFFFFFFFFFFFFFE [97, 98, 99]).count.toNat + (1 : Int).toNat < 2 ^ 61) := by
  decide

theorem witness_AbsorbOfNothingChangesOnlyThePhase : (stateAt .jh .ready [] 0x1FFFFFFFFFFFFFFF []).phase = .ready ∧
    (0 : Int) ≤ 3 ∧ (3 : Int) ≤ 3 ∧ (stateAt .jh .ready [] 0x1FFFFFFFFFFFFFFF []).count.toNat < 2 ^ 61 := by decide

/-- The last byte of the claimed array is absent. -/
theorem witness_OnlyAbsentDataStops :
    exec (.absorb 0 3 3) (stateAt .cubehash .ready [] 0 [97, 98]) = .fault .dataAbsent ∧
    (stateAt .cubehash .ready [] 0 [97, 98]).phase = .ready ∧
    ∃ k, k < (3 : Int).toNat ∧ Memory.read (stateAt .cubehash .ready [] 0 [97, 98]).data ((0 : Int).toNat + k) = none :=
  ⟨rfl, rfl, 2, by decide⟩

theorem witness_FinalClosesCubeHash : (stateAt .cubehash .ready [] 0 []).alg = .cubehash ∧
    (stateAt .cubehash .ready [] 0 []).phase = .ready ∧ (stateAt .cubehash .ready [] 0 []).pos = 0 ∧
    (stateAt .cubehash .absorbing (List.replicate 31 7) 31 []).phase = .absorbing ∧
    (stateAt .cubehash .absorbing (List.replicate 31 7) 31 []).pos = 31 := by decide

theorem witness_FinalClosesJh : (stateAt .jh .ready [] 0 []).alg = .jh ∧ (stateAt .jh .ready [] 0 []).phase = .ready ∧
    (stateAt .jh .ready [] 0 []).pos = 0 ∧ (stateAt .jh .absorbing [1] 1 []).pos = 1 ∧
    (stateAt .jh .absorbing (List.replicate 63 7) 63 []).phase = .absorbing ∧
    (stateAt .jh .absorbing (List.replicate 63 7) 63 []).pos = 63 := by decide

theorem witness_ResultAnswersTheDigest :
    ((stateAt .cubehash .finalized [] 0 []).phase = .finalized ∧ (stateAt .cubehash .finalized [] 0 []).alg = .cubehash) ∧
    ((stateAt .jh .finalized [] 0 []).phase = .finalized ∧ (stateAt .jh .finalized [] 0 []).alg = .jh) ∧
    (stateAt .jh .absorbing [] 0 []).phase ≠ .finalized ∧ (Descriptor.op 0x104 = 4 ∧ Descriptor.zeroN 0x104 ≠ 0) := by decide

theorem witness_TfinalIsFinalThenResult : (stateAt .jh .ready [] 0 []).phase = .ready ∧
    (stateAt .cubehash .absorbing [1] 1 []).phase = .absorbing ∧
    ((stateAt .jh .finalized [] 0 []).phase ≠ .ready ∧ (stateAt .jh .finalized [] 0 []).phase ≠ .absorbing) ∧
    (Descriptor.op 0x105 = 5 ∧ Descriptor.zeroN 0x105 ≠ 0) := by decide

/-- Each command answers a next state somewhere, in both algorithms (for the statements about a next state). -/
theorem witness_exec_answers_next (a : Alg) : (∃ t, exec .init (stateAt a .uninitialized [] 0 []) = .next t) ∧
    (∃ t, exec (.absorb 0 1 1) (stateAt a .ready [] 0 [1]) = .next t) ∧
    (∃ t, exec .final (stateAt a .absorbing [1] 1 []) = .next t) ∧
    (∃ t, exec .result (stateAt a .finalized [] 0 []) = .next t) ∧
    (∃ t, exec .tfinal (stateAt a .ready [] 0 []) = .next t) := by
  refine ⟨⟨_, rfl⟩, ?_, ⟨_, rfl⟩, ⟨_, rfl⟩, ⟨_, rfl⟩⟩
  exact ⟨_, execAbsorb_ok (bs := [1]) (by rfl) (by decide) (by rfl)⟩

/-- The three kinds of event, answered by a next state: `COUNT` changes by `INIT` and by `ABSORB`. -/
theorem witness_OnlyInitAbsorbAndResetWriteCount :
    (∃ t, step (presented (stateAt .jh .finalized [] 7 []) [(0x1, [])]) = .next t ∧ t.count ≠ 7) ∧
    (∃ t, step (presented (stateAt .jh .ready [] 0 []) [(0x00000001000000010000000000000002, [1])]) = .next t ∧ t.count ≠ 0) :=
  ⟨⟨_, rfl, by decide⟩, ⟨_, rfl, by decide⟩⟩

/-- For `ConstructionValuesNeverChange` and `AbsentEngineIsNeverTouched`. -/
theorem witness_step_answers_next (a : Alg) :
    (∃ t, step (presented (stateAt a .uninitialized [] 0 []) [(0x1, [])]) = .next t) ∧ (stateAt a .ready [] 0 []).alg = a :=
  ⟨⟨_, rfl⟩, rfl⟩

theorem witness_PhaseTransitionTable :
    ({ stateAt .jh .absorbing [1] 1 [] with inbox := [.resetInput] } : State).inbox = [.resetInput] ∧
    (∃ t, exec (.absorb 0 1 1) (stateAt .jh .ready [] 0 [1]) = .next t) ∧
    (∃ t, exec (.absorb 0 1 0) (stateAt .jh .absorbing [] 0 []) = .next t) ∧
    (∃ t, exec .final (stateAt .cubehash .ready [] 0 []) = .next t) ∧
    (∃ t, exec .tfinal (stateAt .jh .absorbing [1] 1 []) = .next t) ∧
    (∃ t, exec .result (stateAt .jh .finalized [] 0 []) = .next t) ∧ ¬ Admits .result .ready ∧
    ¬ Admits (.absorb 0 0 0) .finalized ∧ ¬ Admits .final .uninitialized ∧ ¬ Admits .tfinal .finalized :=
  ⟨rfl, ⟨_, rfl⟩, ⟨_, rfl⟩, ⟨_, rfl⟩, ⟨_, rfl⟩, ⟨_, rfl⟩, by simp [Admits]⟩

theorem witness_OnlyInitLeadsToReady : (stateAt .jh .finalized [] 7 []).phase ≠ .ready ∧
    ∃ t, step (presented (stateAt .jh .finalized [] 7 []) [(0x1, [])]) = .next t ∧ t.phase = .ready :=
  ⟨by decide, _, rfl, rfl⟩

theorem witness_MisuseExactlyWhereNotAdmitted : ¬ Admits .final .uninitialized ∧ Admits .init .uninitialized ∧
    Admits .result .finalized ∧ (stateAt .jh .finalized [] 0 []).phase = .finalized ∧
    (∃ t p, exec .tfinal (stateAt .jh .finalized [] 0 []) = .next t ∧ t.response = some ⟨.error .misuse, p⟩) ∧
    ∃ u, exec .result (stateAt .jh .finalized [] 0 []) = .next u :=
  ⟨by simp [Admits], trivial, rfl, rfl, ⟨_, [], rfl, rfl⟩, _, rfl⟩

/-- For `OutOfRangeExactlyWhenTheRangeIsBad` and `ErrorsChangeNothing`. -/
theorem witness_OutOfRangeExactlyWhenTheRangeIsBad :
    (∃ t, exec (.absorb 4 0 3) (stateAt .jh .ready [] 0 []) = .next t ∧ t.response = some ⟨.error .outOfRange, []⟩) ∧
    (stateAt .jh .ready [] 0 []).phase = .ready ∧ ((4 : Int) < 0 ∨ (0 : Int) < 0 ∨ (4 : Int) + 0 > 3) :=
  ⟨⟨_, rfl, rfl⟩, rfl, by decide⟩

/-- For `ErrorsHaveAPriority`, `ErrorsChangeNothing` and the clauses about illegal descriptors. -/
theorem witness_ErrorsHaveAPriority :
    (presented (stateAt .jh .finalized [] 0 []) [(0x00000004FFFFFFFF0000000000000102, [])]).inbox =
      [.command ⟨0x00000004FFFFFFFF0000000000000102, []⟩] ∧
    (∃ e, decode 0x00000004FFFFFFFF0000000000000102 = .error e) ∧
    decode 0x00000005FFFFFFFF0000000000000002 = .ok (.absorb 0 (-1) 5) ∧ ¬ Admits (.absorb 0 (-1) 5) .finalized ∧
    Admits (.absorb 0 (-1) 5) .ready ∧ ((0 : Int) < 0 ∨ (-1 : Int) < 0 ∨ (0 : Int) + -1 > 5) :=
  ⟨rfl, ⟨_, rfl⟩, rfl, by simp [Admits], .inl rfl, by decide⟩

/-- `COUNT` one short of the bound. -/
theorem witness_AbsorbBeyondTheBoundStillRuns :
    (stateAt .jh .absorbing (List.replicate 63 7) 0x1FFFFFFFFFFFFFFF [97, 98, 99]).phase = .absorbing ∧
    (0 : Int) ≤ 2 ∧ (0 : Int) ≤ 1 ∧ (2 : Int) + 1 ≤ 3 ∧
    (stateAt .jh .absorbing (List.replicate 63 7) 0x1FFFFFFFFFFFFFFF [97, 98, 99]).pos <
      (stateAt .jh .absorbing (List.replicate 63 7) 0x1FFFFFFFFFFFFFFF [97, 98, 99]).blockSize ∧
    2 ^ 61 ≤ (stateAt .jh .absorbing (List.replicate 63 7) 0x1FFFFFFFFFFFFFFF [97, 98, 99]).count.toNat + (1 : Int).toNat ∧
    ([99] : List Byte).length = (1 : Int).toNat ∧
    ∀ k, k < (1 : Int).toNat →
      Memory.read (stateAt .jh .absorbing (List.replicate 63 7) 0x1FFFFFFFFFFFFFFF [97, 98, 99]).data ((2 : Int).toNat + k) =
        ([99] : List Byte)[k]? := by decide

/-- An `ABSORB` whose last byte is the last one supplied does not lack data; one byte more does. -/
theorem witness_LacksData : ¬ LacksData (.absorb 0 3 3) (stateAt .cubehash .ready [] 0 [97, 98, 99]) ∧
    LacksData (.absorb 0 3 3) (stateAt .cubehash .ready [] 0 [97, 98]) := by
  refine ⟨?_, 0, 3, 3, rfl, .inl rfl, by decide, by decide, by decide, 2, by decide⟩
  rintro ⟨off, len, dlen, hi, -, -, -, -, k, hk, hr⟩
  injection hi with h1 h2 _
  subst h1 h2
  have all : ∀ k, k < (3 : Int).toNat →
      Memory.read (stateAt .cubehash .ready [] 0 [97, 98, 99]).data ((0 : Int).toNat + k) ≠ none := by decide
  exact all k hk hr

/-- For `EveryCommandEndsInOneOfFourOutcomes` and `PayloadIsTheDigestOrNothing`: a legal descriptor and an illegal one presented,
each with its premise, and a digest and no digest. -/
theorem witness_EveryCommandEndsInOneOfFourOutcomes :
    (presented (stateAt .jh .finalized [] 7 []) [(0x4, [])]).inbox = [.command ⟨0x4, []⟩] ∧
    (∀ i, decode 0x4 = .ok i → ¬ LacksData i (stateAt .jh .finalized [] 7 [])) ∧
    (presented (stateAt .jh .finalized [] 7 []) [(0x7, [])]).inbox = [.command ⟨0x7, []⟩] ∧
    (∀ i, decode 0x7 = .ok i → ¬ LacksData i (stateAt .jh .finalized [] 7 [])) ∧ (∃ e, decode 0x7 = .error e) ∧
    ¬ LacksData .result (stateAt .jh .finalized [] 0 []) ∧
    (∃ t r, exec .result (stateAt .jh .finalized [] 0 []) = .next t ∧ t.response = some r ∧ r.status = .ok) ∧
    (∃ t r, exec .result (stateAt .jh .ready [] 0 []) = .next t ∧ t.response = some r ∧ r.status ≠ .ok) := by
  have noData : ∀ s, ¬ LacksData .result s := fun s h => by
    obtain ⟨_, _, _, hi, -⟩ := h
    cases hi
  have h4 : decode 0x4 = .ok .result := rfl
  have h7 : decode 0x7 = .error .unknownOpcode := rfl
  refine ⟨rfl, fun i hi => ?_, rfl, fun i hi => ?_, ⟨_, h7⟩, noData _, ⟨_, _, rfl, rfl, rfl⟩, ⟨_, _, rfl, rfl, by decide⟩⟩
  · rw [h4] at hi
    injection hi with hi
    exact hi ▸ noData _
  · rw [h7] at hi
    cases hi

/-- A state with two bytes short of a block and `COUNT` two short of the bound, an `ABSORB` of one byte presented. -/
def nearBound : State :=
  presented (stateAt .cubehash .absorbing (List.replicate 30 7) 0x1FFFFFFFFFFFFFFE [])
    [(0x00000001000000010000000000000002, [1])]

theorem witness_EveryStepKeepsTheInvariant : nearBound.Inv ∧ ∃ t, step nearBound = .next t := by
  refine ⟨⟨?_, ?_, ?_, ?_, rfl, ?_⟩, _, rfl⟩
  · exact (by decide : nearBound.pos < nearBound.blockSize)
  · exact fun h => absurd h (by decide)
  · exact fun h => absurd h (by decide)
  · exact fun r h => absurd h (by simp [nearBound, presented, stateAt, State.powerOn])
  · intro e he
    obtain rfl : e = .command ⟨0x00000001000000010000000000000002, Memory.ofBytes [1]⟩ := by
      simpa [nearBound, presented] using he
    exact (by decide : Memory.wf (Memory.ofBytes [1]) = true)

theorem witness_EveryStepKeepsCountMatchingPos : nearBound.CountMatchesPos ∧ nearBound.StaysBelowBound := by
  refine ⟨fun _ => by decide, fun c rest off len dlen hin hdec => ?_⟩
  obtain ⟨rfl, -⟩ : c = ⟨0x00000001000000010000000000000002, Memory.ofBytes [1]⟩ ∧ rest = [] := by
    have : nearBound.inbox = [.command ⟨0x00000001000000010000000000000002, Memory.ofBytes [1]⟩] := rfl
    rw [this] at hin
    simpa [eq_comm] using hin
  have hd : decode 0x00000001000000010000000000000002 = .ok (.absorb 0 1 1) := rfl
  rw [hd] at hdec
  injection hdec with hdec
  injection hdec with _ hlen _
  rw [← hlen]
  decide

/-- For `StreamsAreEquivalent` and `TfinalAnswersTheMessageDigest`: two bytes out of four, an empty range at the end of its
array, a range out of bounds. -/
theorem witness_StreamsAreEquivalent :
    (∀ it ∈ ([(absorbWindow [1] [2, 3] [4], [2, 3]), (absorbWindow [1] [] [], []),
      (present (.absorb 0 1 0) [], [])] : List (HostEvent × List Byte)), Delivers it.1 it.2) ∧
    (messageOf ([(absorbWindow [1] [2, 3] [4], [2, 3]), (absorbWindow [1] [] [], []),
      (present (.absorb 0 1 0) [], [])] : List (HostEvent × List Byte))).length < 2 ^ 61 := by
  refine ⟨fun it hit => ?_, by decide⟩
  simp only [List.mem_cons, List.not_mem_nil, or_false] at hit
  rcases hit with rfl | rfl | rfl
  · exact .inl ⟨[1], [4], by decide, rfl⟩
  · exact .inl ⟨[1], [], by decide, rfl⟩
  · exact .inr ⟨rfl, _, 0, 1, 0, rfl, rfl, by decide⟩

/-- Two instances that differ in every register reset leaves unspecified, and a run of both. -/
theorem witness_UnspecifiedResetValuesAreNeverSeen :
    (stateAt .jh .uninitialized [] 0 []).phase = (stateAt .jh .uninitialized [1] 1 [2]).phase ∧
    (stateAt .jh .uninitialized [] 0 []).inbox = (stateAt .jh .uninitialized [1] 1 [2]).inbox ∧
    (stateAt .jh .uninitialized [] 0 []) ≠ (stateAt .jh .uninitialized [1] 1 [2]) ∧
    ∃ t, Host.Core.run Sys2Proof.core 1 (stateAt .jh .uninitialized [] 0 []) = .next t :=
  ⟨rfl, rfl, by decide, _, rfl⟩

/-- Bounds of indices, lengths and digest sizes: `StoredDescriptorLoadsBack`, `XorinTouchesTheFirstEightWords`,
`NonlinearLayerIsTwoSBoxes`, `LinearLayerIsTheMdsMap`, `SwapExchangesNeighbourGroups`, `JhBlockXorsBeforeAndAfter`,
`BlocksLoadLittleEndian`, `CubeHashPadByteLandsInItsWord`, `JhLengthFieldIsBigEndian`. -/
theorem witness_bounds : 15 < 16 ∧ (7 < 32 ∧ 7 < 8) ∧ (31 < 32 ∧ 8 ≤ 31) ∧ 63 < 64 ∧ (5 < 6 ∧ 63 < 64) ∧
    (List.replicate 32 (0 : Byte)).length = 32 ∧ (List.replicate 64 (0 : Byte)).length = 64 ∧
    (List.replicate 31 (0 : Byte)).length < 32 ∧ (List.replicate 63 (0 : Byte)).length < 64 := by decide

end Sys2Proof.Tests
end

section
/-! The table of phase transitions (10_state.md R25): the phase each admitted command leads to, and why `Ready` and
`Absorbing` cannot be told apart by what a command does. -/

namespace Sys2Proof.Machine

/-! ## The phase a command leads to -/

theorem step_resetInput {s : State} {rest : List HostEvent} (h : s.inbox = .resetInput :: rest) :
    step s = .next (acceptReset s rest) := by
  simp only [step, h]

theorem finalise_phase (s : State) : (finalise s).phase = .finalized := by
  obtain ⟨_, _, _, e, -⟩ := finalise_frame s
  rw [e]

theorem execInit_phase {s t : State} (h : execInit s = .next t) : t.phase = .ready := by
  obtain ⟨_, _, rfl, -⟩ := execInit_cases h
  rfl

theorem execAbsorb_phase {s t : State} {off len dlen : Int} (h : execAbsorb off len dlen s = .next t)
    (hs : s.phase.admitsInput = true) :
    (rangeOk off len dlen = true ∧ t.phase = .absorbing) ∨ (rangeOk off len dlen = false ∧ t = s.raise .outOfRange) := by
  rcases execAbsorb_cases h with ⟨hp, -⟩ | ⟨-, hr, ht⟩ | ⟨-, hr, _, -, -, rfl⟩
  · simp [hs] at hp
  · exact .inr ⟨hr, ht⟩
  · exact .inl ⟨hr, rfl⟩

theorem execFinal_phase {s t : State} (h : execFinal s = .next t) (hs : s.phase.admitsInput = true) :
    t.phase = .finalized := by
  rcases execFinal_cases h with ⟨hp, -⟩ | ⟨-, rfl⟩
  · simp [hs] at hp
  · exact finalise_phase s

theorem execTfinal_phase {s t : State} (h : execTfinal s = .next t) (hs : s.phase.admitsInput = true) :
    t.phase = .finalized := by
  rcases execTfinal_cases h with ⟨hp, -⟩ | ⟨-, rfl⟩
  · simp [hs] at hp
  · exact finalise_phase s

theorem execResult_phase {s t : State} (h : execResult s = .next t) : t.phase = s.phase := by
  rcases execResult_cases h with ⟨-, rfl⟩ | ⟨-, rfl⟩ <;> rfl

/-! ## The same command in another phase -/

theorem execInit_withPhase (s : State) (p : Phase) : execInit { s with phase := p } = execInit s := by
  rcases alg_eq_or s.alg with ha | ha
  · rw [execInit_cubehash ha, execInit_cubehash (by exact ha)]
  · rw [execInit_jh ha, execInit_jh (by exact ha)]

theorem execFinal_withPhase (s : State) {p : Phase} (hp : p.admitsInput = true) :
    execFinal { s with phase := p } = .next ((finalise s).respondOk []) := by
  rw [execFinal, finalise_withPhase, if_neg (by simp [hp])]

theorem execTfinal_withPhase (s : State) {p : Phase} (hp : p.admitsInput = true) :
    execTfinal { s with phase := p } = .next ((finalise s).respondOk (digest (finalise s))) := by
  rw [execTfinal, finalise_withPhase, if_neg (by simp [hp])]

/-- An `ABSORB` in range has the same effect in every phase that admits it. -/
theorem execAbsorb_withPhase (s : State) {p : Phase} (hp : p.admitsInput = true) {off len dlen : Int} {bs : List Byte}
    (hr : rangeOk off len dlen = true) (hd : Memory.readRange s.data off.toNat len.toNat = some bs) :
    execAbsorb off len dlen { s with phase := p } = .next { pushAll s bs with
      count := countAfter s.count len.toNat, phase := .absorbing, response := some ⟨.ok, []⟩ } := by
  rw [execAbsorb_ok (by exact hp) hr (by exact hd), pushAll_withPhase]

/-- What a command does in `Ready` it does in `Absorbing`; the phases differ afterwards only if it left both alone. -/
theorem exec_absorbing_of_ready {i : Instr} {s t : State} (h : exec i { s with phase := .ready } = .next t) :
    exec i { s with phase := .absorbing } = .next t ∨
    exec i { s with phase := .absorbing } = .next { t with phase := .absorbing } ∧ t.phase = .ready := by
  cases i with
  | init =>
    exact .inl ((execInit_withPhase s .absorbing).trans ((execInit_withPhase s .ready).symm.trans h))
  | absorb off len dlen =>
    rcases execAbsorb_cases h with ⟨hp, -⟩ | ⟨-, hr, rfl⟩ | ⟨-, hr, bs, hd, -, rfl⟩
    · cases hp
    · exact .inr ⟨execAbsorb_outOfRange rfl hr, rfl⟩
    · rw [pushAll_withPhase]
      exact .inl (execAbsorb_withPhase s rfl hr hd)
  | final =>
    exact .inl ((execFinal_withPhase s (p := .absorbing) rfl).trans ((execFinal_withPhase s (p := .ready) rfl).symm.trans h))
  | tfinal =>
    exact .inl ((execTfinal_withPhase s (p := .absorbing) rfl).trans ((execTfinal_withPhase s (p := .ready) rfl).symm.trans h))
  | result =>
    rcases execResult_cases h with ⟨-, rfl⟩ | ⟨hp, -⟩
    · exact .inr ⟨exec_notAdmits (i := .result) (by simp [Admits]), rfl⟩
    · cases hp

/-- Settles O25: the inversion lemma of each command gives the phase it leads to, and no command reads the phase but to ask
whether it is admitted. -/
theorem phaseTransitionTable : Obligations.PhaseTransitionTable := by
  refine ⟨?reset, fun _ _ h => execInit_phase h, ?absorb, ?final, ?result, fun _ _ h => exec_notAdmits h, ?twins⟩
  case reset => exact fun s rest hin => ⟨acceptReset s rest, step_resetInput hin, rfl⟩
  case absorb =>
    intro off len dlen s t h hs
    rw [← rangeOk_eq_true]
    rcases execAbsorb_phase h ((admitsInput_eq_true _).mpr hs) with hin | ⟨hr, rfl⟩
    · exact .inl hin
    · exact .inr ⟨by simp [hr], rfl, rfl⟩
  case final =>
    intro i s t hi h hs
    rw [← admitsInput_eq_true] at hs
    rcases hi with rfl | rfl
    · exact execFinal_phase h hs
    · exact execTfinal_phase h hs
  case result => exact fun s t h hs => (execResult_phase h).trans hs
  case twins =>
    intro i s t h
    rcases exec_absorbing_of_ready h with heq | ⟨heq, hready⟩
    · exact ⟨t.phase, heq, .inl rfl⟩
    · exact ⟨.absorbing, heq, .inr ⟨rfl, hready⟩⟩

end Sys2Proof.Machine
end

section
/-! Digests, blocks and pad strings byte by byte (20_memory.md R54 to R59): the serialised state as the bytes of its words
in address order, the bytes of a loaded block's words, and where the length field of the JH pad string stands. -/

namespace Sys2Proof.Machine

/-! ## Words of equal length, serialised -/

/-- A list of words that serialise to `n` parts each is, part by part, part `j mod n` of word `j div n`. -/
theorem flatMap_eq_map_range {α β : Type} {n : Nat} {ser : α → List β} {part : α → Nat → β}
    (hser : ∀ w, ser w = (List.range n).map (part w)) (d : α) (ws : List α) :
    ws.flatMap ser = (List.range (n * ws.length)).map fun j => part (ws.getD (j / n) d) (j % n) := by
  induction ws with
  | nil => rfl
  | cons w ws ih =>
    have hfirst : (List.range n).map (part w) =
        (List.range n).map fun j => part ((w :: ws).getD (j / n) d) (j % n) := by
      refine List.map_congr_left fun j hj => ?_
      have hj : j < n := List.mem_range.mp hj
      rw [Nat.div_eq_of_lt hj, Nat.mod_eq_of_lt hj, List.getD_cons_zero]
    have hrest : ((List.range (n * ws.length)).map fun j => part (ws.getD (j / n) d) (j % n)) =
        ((List.range (n * ws.length)).map (n + ·)).map fun j => part ((w :: ws).getD (j / n) d) (j % n) := by
      rw [List.map_map]
      refine List.map_congr_left fun j hj => ?_
      have hn : 0 < n := Nat.pos_of_ne_zero fun h => by simp [h] at hj
      rw [Function.comp_apply, Nat.add_div_left _ hn, Nat.add_mod_left, List.getD_cons_succ]
    rw [List.flatMap_cons, ih, hser, List.length_cons, Nat.mul_succ, Nat.add_comm, List.range_add, List.map_append,
      hfirst, hrest]

theorem unle32_eq_map (w : Word32) : unle32 w = (List.range 4).map fun j => (w >>> (8 * j)).setWidth 8 := rfl

theorem unle64_eq_map (w : Word64) : unle64 w = (List.range 8).map fun j => (w >>> (8 * j)).setWidth 8 := rfl

/-- The first words, serialised, are the first bytes of all of them serialised. -/
theorem flatMap_take_unle32 (ws : List Word32) {k : Nat} (hk : k ≤ ws.length) :
    (ws.take k).flatMap unle32 = (ws.flatMap unle32).take (4 * k) := by
  have hlen : ((ws.take k).flatMap unle32).length = 4 * k := by
    rw [flatMap_eq_map_range unle32_eq_map 0, List.length_map, List.length_range, List.length_take_of_le hk]
  rw [← List.take_left' (l₂ := (ws.drop k).flatMap unle32) hlen, ← List.flatMap_append, List.take_append_drop]

/-! ## The digests (R56, R58) -/

/-- The serialised CubeHash state, byte by byte. -/
theorem chSerial_eq_map (x : ChState) :
    chSerial x = (List.range 128).map fun j => (chWord x (j / 4) >>> (8 * (j % 4))).setWidth 8 := by
  simp only [chSerial, flatMap_eq_map_range unle32_eq_map 0, Vector.length_toList, chWord]

/-- The serialised JH state, byte by byte. -/
theorem jhSerial_eq_map (s : JhState) :
    jhSerial s = (List.range 128).map fun j => (jhWord s (j / 8) >>> (8 * (j % 8))).setWidth 8 := by
  simp only [jhSerial, flatMap_eq_map_range unle64_eq_map 0, Vector.length_toList, jhWord]

theorem hashSize_bytes_le (h : HashSize) : h.bytes ≤ 64 := by cases h <;> decide

theorem four_mul_bytes_div_four (h : HashSize) : 4 * (h.bytes / 4) = h.bytes := by cases h <;> rfl

@[simp] theorem length_chResult (h : HashSize) (x : ChState) : (chResult h x).length = h.bytes := by simp [chResult]

@[simp] theorem length_jhResult (h : HashSize) (s : JhState) : (jhResult h s).length = h.bytes := by simp [jhResult]

theorem chResult_eq_take (h : HashSize) (x : ChState) : chResult h x = (chSerial x).take h.bytes := by
  have hb := hashSize_bytes_le h
  rw [chSerial_eq_map, ← List.map_take, List.take_range, Nat.min_eq_left (by omega), chResult]

theorem jhResult_eq_drop (h : HashSize) (s : JhState) : jhResult h s = (jhSerial s).drop (128 - h.bytes) := by
  have hb := hashSize_bytes_le h
  have hsplit : List.range 128 = List.range (128 - h.bytes) ++ (List.range h.bytes).map (128 - h.bytes + ·) := by
    rw [← List.range_add, Nat.sub_add_cancel (by omega)]
  rw [jhSerial_eq_map, hsplit, List.map_append, List.drop_left' (by simp), List.map_map]
  rfl

/-- Settles O44: both the digest and the serialised state are listed byte by byte, and HASHSIZE is a whole number of
words. -/
theorem cubeHashDigestIsTheFirstBytes : Obligations.CubeHashDigestIsTheFirstBytes := by
  intro h x
  have hb := hashSize_bytes_le h
  have hwords : h.bytes / 4 ≤ x.toList.length := by rw [Vector.length_toList]; omega
  refine ⟨chResult_eq_take h x, length_chResult h x, ?_⟩
  rw [flatMap_take_unle32 _ hwords, four_mul_bytes_div_four, ← chSerial, chResult_eq_take]

/-- Settles O53: byte j of the digest is byte 128 - HASHSIZE + j of the serialised state. -/
theorem jhDigestIsTheLastBytes : Obligations.JhDigestIsTheLastBytes :=
  fun h s => ⟨jhResult_eq_drop h s, length_jhResult h s⟩

/-! ## The words of a loaded block (R54, R55) -/

/-- The value of a word with a byte put below it. -/
theorem toNat_append_byte {n : Nat} (rest : BitVec n) (b : Byte) : (rest ++ b).toNat = rest.toNat * 256 + b.toNat := by
  rw [BitVec.toNat_append, ← Nat.shiftLeft_add_eq_or_of_lt b.isLt, Nat.shiftLeft_eq]

theorem toNat_le32 (b0 b1 b2 b3 : Byte) : (le32 b0 b1 b2 b3).toNat =
    b0.toNat + b1.toNat * 256 + b2.toNat * 256 ^ 2 + b3.toNat * 256 ^ 3 := by
  simp only [le32, toNat_append_byte]
  ring

theorem toNat_le64 (b0 b1 b2 b3 b4 b5 b6 b7 : Byte) : (le64 b0 b1 b2 b3 b4 b5 b6 b7).toNat =
    b0.toNat + b1.toNat * 256 + b2.toNat * 256 ^ 2 + b3.toNat * 256 ^ 3 + b4.toNat * 256 ^ 4 + b5.toNat * 256 ^ 5 +
      b6.toNat * 256 ^ 6 + b7.toNat * 256 ^ 7 := by
  simp only [le64, toNat_append_byte]
  ring

/-- Word i of a loaded 32-byte block (R54). -/
theorem getElem_chLoad (block : List Byte) {i : Nat} (hi : i < 8) : (chLoad block)[i] =
    le32 (block.getD (4 * i) 0) (block.getD (4 * i + 1) 0) (block.getD (4 * i + 2) 0) (block.getD (4 * i + 3) 0) := by
  simp only [chLoad, Vector.getElem_ofFn]

/-- Word i of a loaded 64-byte block (R55). -/
theorem getElem_jhLoad (block : List Byte) {i : Nat} (hi : i < 8) : (jhLoad block)[i] =
    le64 (block.getD (8 * i) 0) (block.getD (8 * i + 1) 0) (block.getD (8 * i + 2) 0) (block.getD (8 * i + 3) 0)
      (block.getD (8 * i + 4) 0) (block.getD (8 * i + 5) 0) (block.getD (8 * i + 6) 0) (block.getD (8 * i + 7) 0) := by
  simp only [jhLoad, Vector.getElem_ofFn]

/-- Byte j of word i of a loaded 32-byte block. -/
theorem extractLsb'_chLoad (block : List Byte) {i j : Nat} (hi : i < 8) (hj : j < 4) :
    (chLoad block)[i].extractLsb' (8 * j) 8 = block.getD (4 * i + j) 0 := by
  rw [getElem_chLoad block hi, extractLsb'_le32 _ _ _ _ hj]
  interval_cases j <;> rfl

/-- Byte j of word i of a loaded 64-byte block, bit by bit. -/
theorem getLsbD_jhLoad (block : List Byte) {i j k : Nat} (hi : i < 8) (hj : j < 8) (hk : k < 8) :
    (jhLoad block)[i].getLsbD (8 * j + k) = (block.getD (8 * i + j) 0).getLsbD k := by
  rw [getElem_jhLoad block hi, getLsbD_le64 _ _ _ _ _ _ _ _ hj hk]
  interval_cases j <;> rfl

/-- A sum accumulated from the left, as a sum. -/
theorem foldl_add_range (t : Nat → Nat) (n : Nat) :
    (List.range n).foldl (fun acc j => acc + t j) 0 = ∑ j ∈ Finset.range n, t j := by
  induction n with
  | zero => rfl
  | succ n ih => rw [List.range_succ, List.foldl_append, ih, Finset.sum_range_succ, List.foldl_cons, List.foldl_nil]

/-- Settles O54: a word is built by putting each lower byte below the rest, which multiplies the rest by 256. -/
theorem blocksLoadLittleEndian : Obligations.BlocksLoadLittleEndian := by
  constructor
  · intro block i _
    rw [getElem_chLoad block i.isLt, toNat_le32, foldl_add_range]
    simp [Finset.sum_range_succ]
  · intro block i _
    rw [getElem_jhLoad block i.isLt, toNat_le64, foldl_add_range]
    simp [Finset.sum_range_succ]

/-! ## The pad strings in the loaded block (R57, R59) -/

/-- Settles O55: byte p of the padded block is `0x80`, and it is byte p mod 4 of word p div 4. -/
theorem cubeHashPadByteLandsInItsWord : Obligations.CubeHashPadByteLandsInItsWord := by
  intro pending hp
  constructor
  · rw [chPad, Nat.sub_right_comm]
  · rw [extractLsb'_chLoad _ (by omega) (Nat.mod_lt _ (by decide)), Nat.div_add_mod, chPad]
    simp

theorem jhPadLength_bounds {p : Nat} (hp : p < 64) : 64 ≤ jhPadLength p ∧ jhPadLength p < 128 := by
  unfold jhPadLength
  split <;> omega

theorem add_jhPadLength_mod {p : Nat} (hp : p < 64) : (p + jhPadLength p) % 64 = 0 := by
  unfold jhPadLength
  split <;> omega

/-- The last eight bytes of the JH pad string are the bit length, most significant byte first. -/
theorem getElem?_jhPad_lengthField {p : Nat} (hp : p < 64) (c : Word64) {j : Nat} (hj : j < 8) :
    (jhPad p c)[jhPadLength p - 8 + j]? = some ((jhBitLength c).extractLsb' (8 * (7 - j)) 8) := by
  have hfront : ((0x80 : Byte) :: List.replicate (jhPadLength p - 9) 0).length = jhPadLength p - 8 := by
    have := jhPadLength_bounds hp
    simp
    omega
  rw [jhPad, ← List.cons_append, ← hfront, List.getElem?_append_right (Nat.le_add_right _ _), Nat.add_sub_cancel_left,
    ← getD_unbe64 _ hj]
  interval_cases j <;> rfl

/-- Byte 56 + j of the last padded block is byte j of the length field. -/
theorem getD_lastPaddedBlock (pending : List Byte) (hp : pending.length < 64) (c : Word64) {j : Nat} (hj : j < 8) :
    ((pending ++ jhPad pending.length c).drop ((pending ++ jhPad pending.length c).length - 64)).getD (8 * 7 + j) 0 =
      (jhBitLength c).extractLsb' (8 * (7 - j)) 8 := by
  have hlen := jhPadLength_bounds hp
  rw [List.getD_eq_getElem?_getD, List.getElem?_drop, List.length_append, length_jhPad hp,
    List.getElem?_append_right (by omega),
    show pending.length + jhPadLength pending.length - 64 + (8 * 7 + j) - pending.length =
      jhPadLength pending.length - 8 + j by omega,
    getElem?_jhPad_lengthField hp c hj, Option.getD_some]

/-- Settles O56: the length field stands in the last eight bytes, most significant byte first, which are the eight bytes
of `M[7]`, least significant first. -/
theorem jhLengthFieldIsBigEndian : Obligations.JhLengthFieldIsBigEndian := by
  intro pending count hp
  obtain ⟨hmin, hmax⟩ := jhPadLength_bounds hp
  have hlen := length_jhPad hp count
  refine ⟨rfl, ?boundary, by omega, by omega, fun j hj => ⟨?field, fun k hk => ?word⟩⟩
  case boundary => rw [List.length_append, hlen, add_jhPadLength_mod hp]
  case field => rw [hlen, getElem?_jhPad_lengthField hp count hj, jhBitLength]
  case word =>
    rw [getLsbD_jhLoad _ (by decide) hj hk, getD_lastPaddedBlock pending hp count hj, jhBitLength,
      BitVec.getLsbD_extractLsb', decide_eq_true hk, Bool.true_and]

end Sys2Proof.Machine
end

section
/-! Illegal descriptors and payloads (30_encoding.md R81, R87): a descriptor is a command exactly when it is not on R87's
list, an illegal one is answered with no state changed, and which payload the response to each command carries. -/

namespace Sys2Proof

/-! ## The descriptors of R87's list -/

/-- R87's list: `OP` is no opcode, or a bit of the row's `ZERO` field is set. -/
def Descriptor.Illegal (d : Descriptor) : Prop :=
  d.op = 0 ∨ 6 ≤ d.op.toNat ∨ ((d.op = 1 ∨ d.op = 3 ∨ d.op = 4 ∨ d.op = 5) ∧ d.zeroN ≠ 0) ∨ (d.op = 2 ∧ d.zeroA ≠ 0)

theorem opcode_cases (op : BitVec 8) : op = 0 ∨ op = 1 ∨ op = 2 ∨ op = 3 ∨ op = 4 ∨ op = 5 ∨ 6 ≤ op.toNat := by
  bv_omega

/-- The decoder accepts a descriptor exactly when `OP` is an opcode and its row's `ZERO` field is zero (R85). -/
theorem exists_decode_eq_ok_iff (d : Descriptor) : (∃ i, decode d = .ok i) ↔
    ((d.op = 1 ∨ d.op = 3 ∨ d.op = 4 ∨ d.op = 5) ∧ d.zeroN = 0) ∨ (d.op = 2 ∧ d.zeroA = 0) := by
  constructor
  · rintro ⟨i, h⟩
    rcases decode_ok_cases h with ⟨-, ho, hz⟩ | ⟨-, ho, hz⟩ | ⟨-, ho, hz⟩ | ⟨-, ho, hz⟩ | ⟨-, ho, hz⟩ <;> simp [ho, hz]
  · rintro (⟨ho | ho | ho | ho, hz⟩ | ⟨ho, hz⟩)
    · exact ⟨.init, by simp [decode, ho, decodeN_zero hz]⟩
    · exact ⟨.final, by simp [decode, ho, decodeN_zero hz]⟩
    · exact ⟨.result, by simp [decode, ho, decodeN_zero hz]⟩
    · exact ⟨.tfinal, by simp [decode, ho, decodeN_zero hz]⟩
    · exact ⟨_, by simpa [decode, ho] using decodeA_zero hz⟩

theorem Descriptor.not_illegal_iff (d : Descriptor) : ¬ d.Illegal ↔ ∃ i, decode d = .ok i := by
  rw [exists_decode_eq_ok_iff]
  rcases opcode_cases d.op with ho | ho | ho | ho | ho | ho | ho
  case inr.inr.inr.inr.inr.inr =>
    refine iff_of_false (fun h => h (.inr (.inl ho))) ?_
    rintro (⟨hop | hop | hop | hop, -⟩ | ⟨hop, -⟩) <;> simp [hop] at ho
  all_goals simp [Descriptor.Illegal, ho]

theorem Descriptor.Illegal.decode_eq_error {d : Descriptor} (h : d.Illegal) : ∃ e, decode d = .error e := by
  cases hd : decode d with
  | error e => exact ⟨e, rfl⟩
  | ok i => exact absurd h (d.not_illegal_iff.mpr ⟨i, hd⟩)

end Sys2Proof

namespace Sys2Proof.Machine

/-- A descriptor that does not decode is answered by `IllegalCommand`, in every state (R203, R205). -/
theorem step_decode_error {s : State} {c : Command} {rest : List HostEvent} {e : DecodeError}
    (hin : s.inbox = .command c :: rest) (hd : decode c.descr = .error e) :
    step s = .next ((accept s c rest).raise .illegalCommand) := by
  simp only [step, hin, hd]

/-- Settles O5: the decoder rejects exactly the descriptors of R87's list, and a step on a rejected one raises
`IllegalCommand`. -/
theorem illegalDescriptorsAreTheListedOnes : Obligations.IllegalDescriptorsAreTheListedOnes := by
  refine fun d => ⟨fun hill s data rest hin => ?_, d.not_illegal_iff.mp⟩
  obtain ⟨e, he⟩ := Descriptor.Illegal.decode_eq_error hill
  exact step_decode_error hin he

/-! ## The payload of a response (R81) -/

theorem finalise_hashSize (s : State) : (finalise s).hashSize = s.hashSize := by
  obtain ⟨_, _, _, e, -⟩ := finalise_frame s
  rw [e]

/-- The three responses to a command that answers: an error with no payload, the digest to `RESULT` and `TFINAL`, an empty
OK to the other commands. -/
theorem exec_response_cases {i : Instr} {s t : State} (h : exec i s = .next t) :
    (∃ e, t.response = some ⟨.error e, []⟩) ∨
    ((i = .result ∨ i = .tfinal) ∧ t.hashSize = s.hashSize ∧ t.response = some ⟨.ok, digest t⟩) ∨
    (¬ (i = .result ∨ i = .tfinal) ∧ t.response = some ⟨.ok, []⟩) := by
  cases i with
  | init =>
    obtain ⟨_, _, rfl, -⟩ := execInit_cases h
    exact .inr (.inr ⟨by simp, rfl⟩)
  | absorb off len dlen =>
    rcases execAbsorb_cases h with ⟨-, rfl⟩ | ⟨-, -, rfl⟩ | ⟨-, -, _, -, -, rfl⟩
    · exact .inl ⟨_, rfl⟩
    · exact .inl ⟨_, rfl⟩
    · exact .inr (.inr ⟨by simp, rfl⟩)
  | final =>
    rcases execFinal_cases h with ⟨-, rfl⟩ | ⟨-, rfl⟩
    · exact .inl ⟨_, rfl⟩
    · exact .inr (.inr ⟨by simp, rfl⟩)
  | result =>
    rcases execResult_cases h with ⟨-, rfl⟩ | ⟨-, rfl⟩
    · exact .inl ⟨_, rfl⟩
    · exact .inr (.inl ⟨.inl rfl, rfl, rfl⟩)
  | tfinal =>
    rcases execTfinal_cases h with ⟨-, rfl⟩ | ⟨-, rfl⟩
    · exact .inl ⟨_, rfl⟩
    · exact .inr (.inl ⟨.inr rfl, finalise_hashSize s, rfl⟩)

/-- Settles O32: a command with its data answers, its response is one of three, and a digest has HASHSIZE bytes; an illegal
descriptor is answered by an error, which carries no payload. -/
theorem payloadIsTheDigestOrNothing : Obligations.PayloadIsTheDigestOrNothing := by
  refine ⟨rfl, rfl, rfl, rfl, fun i s hdata => ?command, fun s c rest e hin hd => ?illegal⟩
  case command =>
    obtain ⟨t, ht⟩ := exec_answers hdata
    rcases exec_response_cases ht with ⟨e, hr⟩ | ⟨hi, hsize, hr⟩ | ⟨hi, hr⟩
    · exact ⟨t, _, ht, hr, fun h => (nomatch h.2), fun _ => rfl⟩
    · exact ⟨t, _, ht, hr, fun _ => ⟨(length_digest t).trans (congrArg _ hsize), rfl⟩, fun h => absurd ⟨hi, rfl⟩ h⟩
    · exact ⟨t, _, ht, hr, fun h => absurd h.1 hi, fun _ => rfl⟩
  case illegal => exact ⟨_, _, step_decode_error hin hd, rfl, rfl⟩

end Sys2Proof.Machine
end

section
/-! A stream of `ABSORB` commands after `INIT` (40_block_buffer.md R107, R108): the bytes of each event are appended to the
message the core holds, and `TFINAL` answers the digest of what it holds in the end. -/

namespace Sys2Proof.Machine

/-! ## A presented command, and FINAL and TFINAL in a phase that admits them -/

/-- A presented descriptor that decodes runs its command (R64). -/
theorem step_command {s : State} {c : Command} {rest : List HostEvent} {i : Instr} (hin : s.inbox = .command c :: rest)
    (hd : decode c.descr = .ok i) : step s = exec i (accept s c rest) := by
  simp only [step, hin, hd]

theorem execFinal_admitted {s : State} (hp : s.phase.admitsInput = true) :
    execFinal s = .next ((finalise s).respondOk []) := execFinal_withPhase s hp

theorem execTfinal_admitted {s : State} (hp : s.phase.admitsInput = true) :
    execTfinal s = .next ((finalise s).respondOk (digest (finalise s))) := execTfinal_withPhase s hp

theorem finalise_inbox (s : State) : (finalise s).inbox = s.inbox := by
  obtain ⟨_, _, _, e, -⟩ := finalise_frame s
  rw [e]

/-! ## Runs of a stream -/

section

variable {a : Alg} {h : HashSize} {m : List Byte} {t : State} {items : List (HostEvent × List Byte)}
  {rest : List HostEvent}

/-- A stream of events appends the bytes it delivers to the message, event by event. -/
theorem run_delivers (H : t.HoldsMessage a h m) (hd : ∀ it ∈ items, Delivers it.1 it.2)
    (hlt : (m ++ messageOf items).length < 2 ^ 61) (hin : t.inbox = items.map Prod.fst ++ rest) :
    ∃ u : State, Host.Core.run Sys2Proof.core items.length t = .next u ∧ u.HoldsMessage a h (m ++ messageOf items) ∧
      u.inbox = rest := by
  induction items generalizing m t with
  | nil => exact ⟨t, run_zero t, by simpa [messageOf] using H, hin⟩
  | cons it items ih =>
    have hmsg : m ++ messageOf (it :: items) = (m ++ it.2) ++ messageOf items := by simp [messageOf]
    rw [hmsg] at hlt ⊢
    have hfirst : (m ++ it.2).length < 2 ^ 61 := by rw [List.length_append] at hlt; omega
    obtain ⟨v, hstep, Hv, hv⟩ := step_delivers H (hd it (List.mem_cons_self ..)) hfirst hin
    obtain ⟨u, hrun, Hu, hu⟩ := ih Hv (fun it' hit => hd it' (List.mem_cons_of_mem _ hit)) hlt hv
    exact ⟨u, (run_succ _ hstep).trans hrun, Hu, hu⟩

/-- From any state, `INIT` and a stream leave a core that holds the delivered message and nothing of before. -/
theorem run_init_delivers (hd : ∀ it ∈ items, Delivers it.1 it.2) (hlt : (messageOf items).length < 2 ^ 61)
    (hin : t.inbox = present .init [] :: (items.map Prod.fst ++ rest)) :
    ∃ u : State, Host.Core.run Sys2Proof.core (items.length + 1) t = .next u ∧
      u.HoldsMessage t.alg t.hashSize (messageOf items) ∧ u.inbox = rest := by
  obtain ⟨v, hstep, Hv, hv⟩ := step_present_init hin
  obtain ⟨u, hrun, Hu, hu⟩ := run_delivers Hv hd hlt hv
  exact ⟨u, (run_succ _ hstep).trans hrun, Hu, hu⟩

/-- `TFINAL` answers the digest of the message the core holds. -/
theorem step_present_tfinal (H : t.HoldsMessage a h m) (hin : t.inbox = present .tfinal [] :: rest) :
    ∃ u, step t = .next u ∧ u.inbox = rest ∧ u.phase = .finalized ∧ u.response = some ⟨.ok, messageDigest a h m⟩ := by
  have hdec : decode (encode .tfinal) = .ok .tfinal := by decide
  have Hc := H.accept ⟨encode .tfinal, Memory.ofBytes []⟩ rest
  have hstep := (step_command hin hdec).trans (execTfinal_admitted Hc.admits)
  refine ⟨_, hstep, finalise_inbox _, finalise_phase _, ?_⟩
  rw [State.respondOk_response, Hc.digest_finalise]

theorem length_messageDigest (a : Alg) (h : HashSize) (m : List Byte) : (messageDigest a h m).length = h.bytes := by
  cases a with
  | cubehash => exact length_chResult h _
  | jh => exact length_jhResult h _

end

/-- Settles O36: the core holds the delivered message after the stream, by induction on the events. -/
theorem streamsAreEquivalent : Obligations.StreamsAreEquivalent := by
  intro s items rest hd hlt hin
  obtain ⟨t, hrun, H, ht⟩ := run_init_delivers hd hlt hin
  exact ⟨t, hrun, H.alg, H.hs, ht, H.phase, H.x, H.hh, H.buf, H.pos_eq, H.count⟩

/-- Settles O37: after the stream the core holds the delivered message, and `TFINAL` answers its digest. -/
theorem tfinalAnswersTheMessageDigest : Obligations.TfinalAnswersTheMessageDigest := by
  intro s items rest hd hlt hin
  obtain ⟨u, hrun, H, hu⟩ := run_init_delivers hd hlt hin
  obtain ⟨t, hstep, ht, hphase, hresponse⟩ := step_present_tfinal H hu
  have hlast : Host.Core.run Sys2Proof.core 1 u = .next t := (run_succ 0 hstep).trans (run_zero t)
  exact ⟨t, (run_add (items.length + 1) 1 hrun).trans hlast, ht, hphase, hresponse, length_messageDigest ..⟩

end Sys2Proof.Machine
end

section
/-! `INIT`, `ABSORB`, `RESULT` and `TFINAL`, each as one command (40_block_buffer.md R102 to R106): the state each leaves and
what repeating it does. -/

namespace Sys2Proof.Machine

/-- Every descriptor of R87's list is answered by `IllegalCommand`. -/
theorem answeredIllegal_of_illegal {d : Descriptor} (hd : d.Illegal) : AnsweredIllegal d :=
  (illegalDescriptorsAreTheListedOnes d).1 hd

/-! ## INIT (R102) -/

/-- `INIT` on the empty message it has itself started changes nothing. -/
theorem execInit_idempotent {s t : State} (h : execInit s = .next t) : execInit t = .next t := by
  rcases alg_eq_or s.alg with ha | ha
  · rw [execInit_cubehash ha] at h
    injection h with h
    subst h
    exact execInit_cubehash ha
  · rw [execInit_jh ha] at h
    injection h with h
    subst h
    exact execInit_jh ha

/-- Settles O12: the equation of `INIT` for each algorithm does not ask for the phase. -/
theorem initStartsAnEmptyMessage : Obligations.InitStartsAnEmptyMessage := by
  refine ⟨fun s ha => execInit_cubehash ha, fun s ha => execInit_jh ha, fun d hop hz => ?_,
    fun s t h => execInit_idempotent h⟩
  exact answeredIllegal_of_illegal (.inr (.inr (.inl ⟨.inl hop, hz⟩)))

/-! ## ABSORB (R103) -/

/-- Pushing bytes into the buffer, for either algorithm. -/
theorem pushAll_eq {s : State} (bs : List Byte) (hp : s.pos < s.blockSize) : pushAll s bs = { s with
    x := if s.alg = .cubehash then chAbsorbBlocks (completeBlocks 32 (s.buf ++ bs)) s.x else s.x
    h := if s.alg = .jh then jhAbsorbBlocks (completeBlocks 64 (s.buf ++ bs)) s.h else s.h
    buf := lastBytes s.blockSize (s.buf ++ bs) } := by
  rcases alg_eq_or s.alg with ha | ha
  · have hb : s.blockSize = 32 := by rw [State.blockSize, ha, Alg.blockSize]
    rw [hb] at hp ⊢
    rw [pushAll_cubehash bs ha hp]
    simp [ha]
  · have hb : s.blockSize = 64 := by rw [State.blockSize, ha, Alg.blockSize]
    rw [hb] at hp ⊢
    rw [pushAll_jh bs ha hp]
    simp [ha]

/-- `ABSORB` of a range the host supplied, for every `COUNT`. -/
theorem execAbsorb_range {s : State} {off len dlen : Int} {bytes : List Byte} (hphase : s.phase.admitsInput = true)
    (hr : rangeOk off len dlen = true) (hp : s.pos < s.blockSize)
    (hd : Memory.readRange s.data off.toNat len.toNat = some bytes) :
    execAbsorb off len dlen s = .next { s with
      x := if s.alg = .cubehash then chAbsorbBlocks (completeBlocks 32 (s.buf ++ bytes)) s.x else s.x
      h := if s.alg = .jh then jhAbsorbBlocks (completeBlocks 64 (s.buf ++ bytes)) s.h else s.h
      buf := lastBytes s.blockSize (s.buf ++ bytes)
      count := countAfter s.count len.toNat, phase := .absorbing, response := some ⟨.ok, []⟩ } := by
  rw [execAbsorb_ok hphase hr hd, pushAll_eq bytes hp]

/-- Settles O13: the checks in the order of R204, then the bytes of the range through the Pending Buffer. -/
theorem absorbAbsorbsTheRange : Obligations.AbsorbAbsorbsTheRange := by
  refine ⟨fun d hop hz => ?illegal, fun off len dlen s h1 h2 => ?misuse, fun off len dlen s hphase hr => ?outOfRange,
    fun off len dlen s bytes hphase h0 h1 h2 hp hbound hlen hread => ?absorbed⟩
  case illegal => exact answeredIllegal_of_illegal (.inr (.inr (.inr ⟨hop, hz⟩)))
  case misuse => exact execAbsorb_misuse off len dlen ((admitsInput_eq_false _).mpr ⟨h1, h2⟩)
  case outOfRange =>
    exact execAbsorb_outOfRange ((admitsInput_eq_true _).mpr hphase) ((rangeOk_eq_false _ _ _).mpr hr)
  case absorbed =>
    have hd : Memory.readRange s.data off.toNat len.toNat = some bytes :=
      (Memory.readRange_eq_some _ _ _ _).mpr ⟨hlen, hread⟩
    have htotal : (s.buf ++ bytes).length = s.pos + len.toNat := by rw [List.length_append, hlen, State.pos]
    refine ⟨?_, by rw [length_completeBlocks, htotal], by rw [length_lastBytes, htotal]⟩
    rw [← countAfter_eq hbound]
    exact execAbsorb_range ((admitsInput_eq_true _).mpr hphase) ((rangeOk_eq_true _ _ _).mpr ⟨h0, h1, h2⟩) hp hd

/-! ## RESULT (R105) -/

theorem digest_cubehash {s : State} (ha : s.alg = .cubehash) : digest s = chResult s.hashSize s.x := by
  simp only [digest, ha]

theorem digest_jh {s : State} (ha : s.alg = .jh) : digest s = jhResult s.hashSize s.h := by
  simp only [digest, ha]

theorem execResult_finalized {s : State} (hp : s.phase = .finalized) :
    execResult s = .next (s.respondOk (digest s)) := by
  rw [execResult, if_neg (by simp [hp])]

/-- The digest does not depend on the response, and a phase that does not admit `RESULT` stays as it is. -/
theorem execResult_idempotent {s t : State} (h : execResult s = .next t) : execResult t = .next t := by
  rcases execResult_cases h with ⟨hp, rfl⟩ | ⟨hp, rfl⟩
  · exact exec_notAdmits (i := .result) hp
  · exact execResult_finalized hp

/-- Settles O18: `RESULT` reads the digest off the engine's state, and writes the response alone. -/
theorem resultAnswersTheDigest : Obligations.ResultAnswersTheDigest := by
  refine ⟨fun s hp ha => ?cubehash, fun s hp ha => ?jh, fun s hp => exec_notAdmits (i := .result) hp,
    fun s t h => execResult_idempotent h, fun d hop hz => ?illegal⟩
  case cubehash =>
    rw [← digest_cubehash ha]
    exact execResult_finalized hp
  case jh =>
    rw [← digest_jh ha]
    exact execResult_finalized hp
  case illegal => exact answeredIllegal_of_illegal (.inr (.inr (.inl ⟨.inr (.inr (.inl hop)), hz⟩)))

/-! ## TFINAL (R106) -/

/-- Settles O19: `RESULT` after `FINAL` replaces the empty payload by the digest of the finalised state, the payload of
`TFINAL`. -/
theorem tfinalIsFinalThenResult : Obligations.TfinalIsFinalThenResult := by
  refine ⟨fun s hs => ?admitted, fun s h1 h2 => ?misuse, fun d hop hz => ?illegal⟩
  case admitted =>
    rw [← admitsInput_eq_true] at hs
    have hfin : ((finalise s).respondOk []).phase = .finalized := finalise_phase s
    have hresult : exec .result ((finalise s).respondOk []) = .next ((finalise s).respondOk (digest (finalise s))) :=
      execResult_finalized hfin
    exact ⟨_, _, execFinal_admitted hs, hresult, execTfinal_admitted hs, hfin, execResult_idempotent hresult⟩
  case misuse =>
    have hmisuse : exec .tfinal s = .next (s.raise .misuse) := exec_notAdmits (by simp [Admits, h1, h2])
    exact ⟨hmisuse, hmisuse.trans (exec_notAdmits (by simp [Admits, h1, h2])).symm⟩
  case illegal => exact answeredIllegal_of_illegal (.inr (.inr (.inl ⟨.inr (.inr (.inr hop)), hz⟩)))

end Sys2Proof.Machine
end

section
/-! The CubeHash engine (41_cubehash.md R130 to R137): half a round in gather form, the message words of a block one by one,
the table of initialisation vectors, and `FINAL`. -/

namespace Sys2Proof.Machine

open Sys2Proof.Laws

/-! ## The round (R131, R132) -/

/-- Half a round in gather form: the sums are both the high half and what is xored into the rotated, permuted low half. -/
theorem chHalfRound_eq_gather (n : Nat) (p q : Fin 16) (x : ChState) :
    chSwapHigh q (chXorHighIntoLow (chSwapLow p (chRotateLow n (chAddLowIntoHigh x)))) =
      chJoin (fun i => rotl32 (chLo x (i ^^^ p)) n ^^^ add32 (chHi x i) (chLo x i))
        (fun i => add32 (chHi x (i ^^^ q)) (chLo x (i ^^^ q))) := by
  simp only [chSwapHigh, chXorHighIntoLow, chSwapLow, chRotateLow, chAddLowIntoHigh, chLo_chJoin, chHi_chJoin]

/-- Settles O39: the gather form of the second half round, taken at the gather form of the first. -/
theorem roundIsItsGatherForm : Obligations.RoundIsItsGatherForm := by
  intro x
  rw [chRound, chSecondHalfRound, chHalfRound_eq_gather 11 4 1, chFirstHalfRound, chHalfRound_eq_gather 7 8 2,
    chLo_chJoin, chHi_chJoin]
  rfl

/-! ## The block transform (R130, R133, R134) -/

theorem getElem_chXorin_of_lt (w : ChBlockWords) (x : ChState) {i : Nat} (h : i < 8) :
    (chXorin w x)[i] = x[i] ^^^ w[i] := by
  simp [chXorin, h]

theorem getElem_chXorin_of_ge (w : ChBlockWords) (x : ChState) {i : Nat} (h : 8 ≤ i) (hi : i < 32) :
    (chXorin w x)[i] = x[i] := by
  simp [chXorin, Nat.not_lt.mpr h]

/-- Settles O42: one case for each side of index 8. -/
theorem xorinTouchesTheFirstEightWords : Obligations.XorinTouchesTheFirstEightWords :=
  fun w x _ hi => ⟨fun h8 => getElem_chXorin_of_lt w x h8, fun h8 => getElem_chXorin_of_ge w x h8 hi⟩

theorem chLoad_zero : chLoad (List.replicate 32 0) = Vector.replicate 8 0 := by decide

theorem chXorin_zero (x : ChState) : chXorin (Vector.replicate 8 0) x = x := by
  apply Vector.ext
  intro i hi
  by_cases h8 : i < 8
  · rw [getElem_chXorin_of_lt _ _ h8, Vector.getElem_replicate]
    exact BitVec.xor_zero
  · exact getElem_chXorin_of_ge _ _ (Nat.not_lt.mp h8) hi

/-- Settles O41: the words of the zero block are zero, and XORing them in changes nothing. -/
theorem blankIsTheZeroBlock : Obligations.BlankIsTheZeroBlock := by
  intro x
  refine ⟨?_, rfl⟩
  rw [chLoad_zero, chBlock, chXorin_zero, chBlank]

/-! ## The initialisation vectors (R135, R136) -/

/-- `CH_IVGEN` on lists: ten blank transforms are 160 rounds. -/
theorem chLists_chIvGen (h : HashSize) : chLists (chIvGen h) = fastRounds 160 (chLists (chSeed h)) := by
  rw [chIvGen, chBlank_iterate, chLists_rounds]

/-- Settles O43: the 160 rounds evaluated on lists, one digest size after another. -/
theorem cubeHashIvTableIsIvGen : Obligations.CubeHashIvTableIsIvGen := by
  intro h
  apply chLists_injective
  rw [chLists_chIvGen]
  cases h <;> decide +kernel

/-! ## FINAL (R104, R137) -/

/-- Settles O16: a phase that admits `FINAL` runs it, and the pad string fills the buffer to one block exactly. -/
theorem finalClosesCubeHash : Obligations.FinalClosesCubeHash := by
  intro s ha hphase hp
  have hfinal : exec .final s = .next ((finalise s).respondOk []) :=
    execFinal_admitted ((admitsInput_eq_true _).mpr hphase)
  rw [hfinal, finalise_cubehash ha hp]
  rfl

end Sys2Proof.Machine
end

section
/-! The JH engine (42_jh.md R161 to R171): the layers of a round bit by bit and word by word, why each of them can be undone,
the block transform, and `FINAL`. -/

namespace Sys2Proof.Machine

/-! ## The swap (R164) -/

/-- Flipping bit r of a bit index moves it by 2^r, down if the bit was set and up if it was not. -/
theorem xor_two_pow_of_lt {r k : Nat} (hr : r < 6) (hk : k < 64) :
    k ^^^ 2 ^ r = if k.testBit r then k - 2 ^ r else k + 2 ^ r := by
  have h : ∀ r < 6, ∀ k < 64, k ^^^ 2 ^ r = if k.testBit r then k - 2 ^ r else k + 2 ^ r := by decide
  exact h r hr k hk

/-- `MASK_n` selects the lower group of each pair: the bits whose index has bit r clear, n being 2^r. -/
theorem getLsbD_jhMask {r k : Nat} (hr : r < 6) (hk : k < 64) : (jhMask (2 ^ r)).getLsbD k = !k.testBit r := by
  have h : ∀ r < 6, ∀ k < 64, (jhMask (2 ^ r)).getLsbD k = !k.testBit r := by decide
  exact h r hr k hk

/-- The two halves of a swap never meet: the left shift fills the upper group of each pair, the right shift the lower. -/
theorem getLsbD_jhSwap (v : Word64) {r k : Nat} (hr : r < 6) (hk : k < 64) :
    (jhSwap v (2 ^ r)).getLsbD k = v.getLsbD (k ^^^ 2 ^ r) := by
  have hlow : 2 ^ r ≤ k → (jhMask (2 ^ r)).getLsbD (k - 2 ^ r) = k.testBit r := fun hle => by
    obtain ⟨j, rfl⟩ := Nat.exists_eq_add_of_le hle
    have hj : j < 64 := Nat.lt_of_le_of_lt (Nat.le_add_left ..) hk
    rw [Nat.add_sub_cancel_left, getLsbD_jhMask hr hj, Nat.testBit_two_pow_add_eq]
  rw [xor_two_pow_of_lt hr hk]
  simp only [jhSwap, shl64, shr64, BitVec.getLsbD_or, BitVec.getLsbD_shiftLeft, BitVec.getLsbD_and,
    BitVec.getLsbD_ushiftRight, getLsbD_jhMask hr hk, hk, decide_true, Bool.true_and]
  cases hbit : k.testBit r with
  | true =>
    have hle : 2 ^ r ≤ k := Nat.ge_two_pow_of_testBit hbit
    simp [hlow hle, hbit, Nat.not_lt.mpr hle]
  | false =>
    by_cases hlt : k < 2 ^ r
    · simp [hlt, Nat.add_comm]
    · simp [hlow (Nat.not_lt.mp hlt), hbit, Nat.add_comm]

theorem jhSwap_jhSwap (v : Word64) {r : Nat} (hr : r < 6) : jhSwap (jhSwap v (2 ^ r)) (2 ^ r) = v := by
  apply BitVec.eq_of_getLsbD_eq
  intro k hk
  have hpow : 2 ^ r < 2 ^ 6 := Nat.pow_lt_pow_right (by decide) hr
  rw [getLsbD_jhSwap _ hr hk, getLsbD_jhSwap _ hr (Nat.xor_lt_two_pow (n := 6) hk hpow), Nat.xor_xor_cancel_right]

/-- The swap of the two halves of a word is a rotation by half its width. -/
theorem jhSwap_32 (v : Word64) : jhSwap v 32 = v.rotateLeft 32 := by
  apply BitVec.eq_of_getLsbD_eq
  intro k hk
  have hbit : k.testBit 5 = decide (32 ≤ k) := by
    rw [Nat.testBit_eq_decide_div_mod_eq, decide_eq_decide]
    omega
  have hswap : (jhSwap v 32).getLsbD k = v.getLsbD (k ^^^ 2 ^ 5) := getLsbD_jhSwap v (r := 5) (by decide) hk
  rw [BitVec.getLsbD_rotateLeft, hswap, xor_two_pow_of_lt (by decide) hk, hbit]
  by_cases hlow : k < 32
  · simp [hlow, Nat.not_le.mpr hlow, Nat.add_comm]
  · simp [hlow, Nat.not_lt.mp hlow, hk]

/-- Settles O47: bit by bit, an exclusive or with the same distance twice being none. -/
theorem swapExchangesNeighbourGroups : Obligations.SwapExchangesNeighbourGroups :=
  ⟨fun v _ _ hr hk => getLsbD_jhSwap v hr hk, fun v _ hr => jhSwap_jhSwap v hr, jhSwap_32⟩

/-! ## The word swap (R165) -/

/-- Settles O48: row by row. -/
theorem wordSwapExchangesOddRows : Obligations.WordSwapExchangesOddRows := by
  intro s j
  fin_cases j <;> exact ⟨rfl, rfl, rfl, rfl⟩

/-! ## The nonlinear layer, lane by lane (R162) -/

/-- Bit k of m0..m3, the left group of a pass. -/
def JhPass.leftLane (m : JhPass) (k : Nat) : Bool × Bool × Bool × Bool :=
  (m.m0.getLsbD k, m.m1.getLsbD k, m.m2.getLsbD k, m.m3.getLsbD k)

/-- Bit k of m4..m7, the right group of a pass. -/
def JhPass.rightLane (m : JhPass) (k : Nat) : Bool × Bool × Bool × Bool :=
  (m.m4.getLsbD k, m.m5.getLsbD k, m.m6.getLsbD k, m.m7.getLsbD k)

/-- The eleven lines of `JH_SS` on one lane, `c` the lane's bit of the round constant. -/
def laneSS (c : Bool) : Bool × Bool × Bool × Bool → Bool × Bool × Bool × Bool
  | (b0, b1, b2, b3) =>
    let b3 := !b3
    let b0 := b0 ^^ (!b2 && c)
    let t := c ^^ (b0 && b1)
    let b0 := b0 ^^ (b2 && b3)
    let b3 := b3 ^^ (!b1 && b2)
    let b1 := b1 ^^ (b0 && b2)
    let b2 := b2 ^^ (b0 && !b3)
    let b0 := b0 ^^ (b1 || b3)
    let b3 := b3 ^^ (b1 && b2)
    let b1 := b1 ^^ (t && b0)
    let b2 := b2 ^^ t
    (b0, b1, b2, b3)

theorem leftLane_jhSS (m : JhPass) (cc0 cc1 : Word64) {k : Nat} (hk : k < 64) :
    (jhSS m cc0 cc1).leftLane k = laneSS (cc0.getLsbD k) (m.leftLane k) := by
  simp only [jhSS, JhPass.leftLane, laneSS, BitVec.getLsbD_xor, BitVec.getLsbD_and, BitVec.getLsbD_or,
    getLsbD_not64 _ hk]

theorem rightLane_jhSS (m : JhPass) (cc0 cc1 : Word64) {k : Nat} (hk : k < 64) :
    (jhSS m cc0 cc1).rightLane k = laneSS (cc1.getLsbD k) (m.rightLane k) := by
  simp only [jhSS, JhPass.rightLane, laneSS, BitVec.getLsbD_xor, BitVec.getLsbD_and, BitVec.getLsbD_or,
    getLsbD_not64 _ hk]

/-- Each of the two S-boxes is a permutation of the sixteen lane values. -/
theorem laneSS_injective (c : Bool) : Function.Injective (laneSS c) := by
  revert c
  decide

theorem jhPass_ext_lanes {m p : JhPass} (hl : ∀ k < 64, m.leftLane k = p.leftLane k)
    (hr : ∀ k < 64, m.rightLane k = p.rightLane k) : m = p := by
  obtain ⟨m0, m1, m2, m3, m4, m5, m6, m7⟩ := m
  obtain ⟨p0, p1, p2, p3, p4, p5, p6, p7⟩ := p
  simp only [JhPass.leftLane, JhPass.rightLane, Prod.mk.injEq] at hl hr
  congr 1 <;> apply BitVec.eq_of_getLsbD_eq <;> intro k hk <;> simp [hl k hk, hr k hk]

theorem jhSS_injective (cc0 cc1 : Word64) : Function.Injective fun m => jhSS m cc0 cc1 := by
  intro m p h
  refine jhPass_ext_lanes (fun k hk => ?left) (fun k hk => ?right)
  case left =>
    apply laneSS_injective (cc0.getLsbD k)
    rw [← leftLane_jhSS m cc0 cc1 hk, ← leftLane_jhSS p cc0 cc1 hk]
    exact congrArg (·.leftLane k) h
  case right =>
    apply laneSS_injective (cc1.getLsbD k)
    rw [← rightLane_jhSS m cc0 cc1 hk, ← rightLane_jhSS p cc0 cc1 hk]
    exact congrArg (·.rightLane k) h

/-! ## The round and E8 (R166, R167) -/

theorem jhL_injective : Function.Injective jhL := Function.LeftInverse.injective jhLUndone_jhL

theorem jhSwapOdd_involutive {r : Nat} (hr : r < 6) : Function.Involutive fun m => jhSwapOdd m (2 ^ r) := by
  intro m
  simp only [jhSwapOdd, jhSwap_jhSwap _ hr]

/-- Pass i of a round determines the words the pass read. -/
theorem jhPass_eq_of_jhPassRound_eq {rc : List Word64} {R : Nat} {s t : JhState} {i : Fin 2}
    (h : jhPassRound rc R s i = jhPassRound rc R t i) : jhPass s i = jhPass t i := by
  apply jhSS_injective (rc.getD (4 * R + i) 0) (rc.getD (4 * R + 2 + i) 0)
  apply jhL_injective
  unfold jhPassRound at h
  split at h
  · exact (jhSwapOdd_involutive (by omega)).injective h
  · exact h

theorem jhOfPasses_injective {p q p' q' : JhPass} (h : jhOfPasses p q = jhOfPasses p' q') : p = p' ∧ q = q' :=
  ⟨congrArg (jhPass · 0) h, congrArg (jhPass · 1) h⟩

theorem jhRound_injective (rc : List Word64) (R : Nat) : Function.Injective (jhRound rc R) := by
  intro s t h
  have hpasses : jhOfPasses (jhPassRound rc R s 0) (jhPassRound rc R s 1) =
      jhOfPasses (jhPassRound rc R t 0) (jhPassRound rc R t 1) := by
    unfold jhRound at h
    split at h
    · exact (Function.Involutive.injective jhWSwap_undone) h
    · exact h
  obtain ⟨h0, h1⟩ := jhOfPasses_injective hpasses
  rw [← jhOfPasses_jhPass s, ← jhOfPasses_jhPass t, jhPass_eq_of_jhPassRound_eq h0, jhPass_eq_of_jhPassRound_eq h1]

/-- Any sequence of rounds is injective. -/
theorem foldl_jhRound_injective (rc : List Word64) (Rs : List Nat) :
    Function.Injective fun s => Rs.foldl (fun s R => jhRound rc R s) s := by
  induction Rs with
  | nil => exact Function.injective_id
  | cons R Rs ih => exact ih.comp (jhRound_injective rc R)

theorem finite_jhState : Finite JhState :=
  Finite.of_injective (fun (s : JhState) (i : Fin 16) => s[i]) fun _ _ h => Vector.ext fun i hi => congrFun h ⟨i, hi⟩

/-- Settles O49: every round is injective, and on finitely many states an injective map is a bijection. -/
theorem e8IsABijection : Obligations.E8IsABijection := by
  intro rc
  have := finite_jhState
  exact ⟨fun _ => rfl, Finite.injective_iff_bijective.mp (foldl_jhRound_injective rc (List.range 42))⟩

/-! ## The block transform (R161, R168, R169) -/

theorem getElem_jhXorin_low (m : JhBlockWords) (s : JhState) {i : Nat} (hi : i < 8) :
    (jhXorin m s)[i] = s[i] ^^^ m[i] := by
  simp [jhXorin, hi]

theorem getElem_jhXorin_high (m : JhBlockWords) (s : JhState) {i : Nat} (hi : i < 8) :
    (jhXorin m s)[8 + i] = s[8 + i] := by
  simp [jhXorin]

theorem getElem_jhXorout_low (m : JhBlockWords) (s : JhState) {i : Nat} (hi : i < 8) : (jhXorout m s)[i] = s[i] := by
  simp [jhXorout, hi]

theorem getElem_jhXorout_high (m : JhBlockWords) (s : JhState) {i : Nat} (hi : i < 8) :
    (jhXorout m s)[8 + i] = s[8 + i] ^^^ m[i] := by
  simp [jhXorout]

/-- Two states agree if their first and their second eight words do. -/
theorem jhState_ext_halves {s t : JhState} (hlow : ∀ (i : Nat) (hi : i < 8), s[i] = t[i])
    (hhigh : ∀ (i : Nat) (hi : i < 8), s[8 + i] = t[8 + i]) : s = t := by
  apply Vector.ext
  intro i hi
  by_cases h8 : i < 8
  · exact hlow i h8
  · obtain ⟨j, rfl⟩ := Nat.exists_eq_add_of_le (Nat.not_lt.mp h8)
    exact hhigh j (by omega)

theorem jhXorin_zero (s : JhState) : jhXorin (Vector.replicate 8 0) s = s :=
  jhState_ext_halves (fun i hi => by simp [getElem_jhXorin_low _ s hi]) fun i hi => getElem_jhXorin_high _ s hi

theorem jhXorout_zero (s : JhState) : jhXorout (Vector.replicate 8 0) s = s :=
  jhState_ext_halves (fun i hi => getElem_jhXorout_low _ s hi) fun i hi => by simp [getElem_jhXorout_high _ s hi]

/-- Settles O50: word by word; XORing the zero block in or out changes nothing. -/
theorem jhBlockXorsBeforeAndAfter : Obligations.JhBlockXorsBeforeAndAfter := by
  intro rc m s
  refine ⟨fun i hi => ⟨getElem_jhXorin_low m s hi, getElem_jhXorin_high m s hi⟩,
    fun i hi => ⟨getElem_jhXorout_low m s hi, getElem_jhXorout_high m s hi⟩, rfl, ?_⟩
  rw [jhBlock, jhXorin_zero, jhXorout_zero]

/-! ## FINAL (R104, R171) -/

/-- Settles O17: a phase that admits `FINAL` runs it, and the pad string fills one block if `POS` is 0, else two. -/
theorem finalClosesJh : Obligations.FinalClosesJh := by
  intro s ha hphase
  have hfinal : exec .final s = .next ((finalise s).respondOk []) :=
    execFinal_admitted ((admitsInput_eq_true _).mpr hphase)
  constructor
  · intro h0
    rw [hfinal, finalise_jh_zero ha h0, jhPad_zero]
    rfl
  · intro h0 hp
    rw [hfinal, finalise_jh_pos ha h0 hp]
    rfl

end Sys2Proof.Machine
end

section
/-! Where the JH tables come from (43_jh_constants.md R193, R194). The initialisation vectors are E8 of the start states, the
zero block being XORed in and out. For the round constants, bit j of C_R is read off the numeral that Laws/JhConstants.lean gives
for C_R, in place of a list of its 64 elements, and the table is compared with the generated entries round by round. -/

namespace Sys2Proof.Machine

open Sys2Proof.Laws

/-! ## The initialisation vectors (R193) -/

/-- The derivation is E8 alone. -/
theorem jhIvGen_eq_jhE8 (rc : List Word64) (h : HashSize) : jhIvGen rc h = jhE8 rc (jhIvSeed h) := by
  rw [jhIvGen, jhBlock, jhXorin_zero, jhXorout_zero]

/-- Settles O51: the 42 rounds evaluated, one digest size after another. -/
theorem jhIvTableIsItsDerivation : Obligations.JhIvTableIsItsDerivation := by
  intro h
  rw [jhIvGen_eq_jhE8]
  cases h <;> decide +kernel

/-! ## The bits of a constant (R194) -/

theorem getD_nibbles (w : Nat) {n i : Nat} (hi : i < n) : (nibbles w n).getD i 0 = w / 16 ^ (n - 1 - i) % 16 := by
  induction n generalizing i with
  | zero => omega
  | succ n ih =>
    cases i with
    | zero => rfl
    | succ i =>
      rw [nibbles, List.getD_cons_succ, ih (by omega), show n + 1 - 1 - (i + 1) = n - 1 - i by omega]

/-- Bit j counted from the most significant of 256 is bit 255 − j of the numeral. -/
theorem constantBit_nibbles (w : Nat) {j : Nat} (hj : j < 256) :
    constantBit (nibbles w 64) j = w / 2 ^ (255 - j) % 2 := by
  have hplace : 3 - j % 4 + 4 * (64 - 1 - j / 4) = 255 - j := by omega
  have hlow : 3 - j % 4 < 4 := by omega
  calc constantBit (nibbles w 64) j
      = w / 2 ^ (4 * (64 - 1 - j / 4)) % 2 ^ 4 / 2 ^ (3 - j % 4) % 2 := by
        rw [constantBit, getD_nibbles w (by omega), show (16 : Nat) = 2 ^ 4 from rfl, Nat.pow_mul]
    _ = w / 2 ^ (255 - j) % 2 := by
        simp only [← Nat.toNat_testBit, Nat.testBit_mod_two_pow, Nat.testBit_div_two_pow, hplace, hlow, decide_true,
          Bool.true_and]

theorem rotr7_lt : ∀ r < 7, ∀ i < 128, rotr7 i r < 128 := by decide +kernel

/-! ## The round constants (R194) -/

/-- The four entries of round R, the constant C_R given as a numeral of 256 bits. -/
def jhRcOfNumber (R w : Nat) : List Word64 :=
  laneWords ((List.range 128).map fun i => w / 2 ^ (255 - 2 * rotr7 i (R % 7)) % 2) ++
    laneWords ((List.range 128).map fun i => w / 2 ^ (255 - (2 * rotr7 i (R % 7) + 1)) % 2)

theorem jhRcOfConstant_nibbles (R w : Nat) : jhRcOfConstant R (nibbles w 64) = jhRcOfNumber R w := by
  have hrot : ∀ i ∈ List.range 128, rotr7 i (R % 7) < 128 := fun i hi =>
    rotr7_lt _ (Nat.mod_lt _ (by decide)) i (List.mem_range.mp hi)
  rw [jhRcOfConstant, jhRcOfNumber,
    List.map_congr_left fun i hi => constantBit_nibbles w (show 2 * rotr7 i (R % 7) < 256 by have := hrot i hi; omega),
    List.map_congr_left fun i hi => constantBit_nibbles w (show 2 * rotr7 i (R % 7) + 1 < 256 by have := hrot i hi; omega)]

theorem jhRcGen_eq_ofNumbers : jhRcGen = (constants.zipIdx.map fun p => jhRcOfNumber p.2 p.1).flatten := by
  have hround : (fun p : List Nat × Nat => jhRcOfConstant p.2 p.1) ∘ Prod.map (nibbles · 64) id =
      fun p => jhRcOfNumber p.2 p.1 := funext fun p => jhRcOfConstant_nibbles p.2 p.1
  rw [jhRcGen, jhConstants_eq, List.zipIdx_map, List.map_map, hround]

/-- `JH_RC[4R..4R+3]`, the entries of round R (R191). -/
def jhRcRow (R : Nat) : List Word64 := (jhRc.drop (4 * R)).take 4

theorem flatten_jhRcRow : ((List.range 42).map jhRcRow).flatten = jhRc := by decide +kernel

/-- Each row of the table is the bit-sliced form of its constant. -/
theorem jhRcOfNumber_constants :
    (constants.zipIdx.map fun p => jhRcOfNumber p.2 p.1) = (List.range 42).map jhRcRow := by decide +kernel

/-- Settles O52: the table is its 42 rows, and each row is what R194 makes of C_R. -/
theorem jhRoundConstantsAreGenerated : Obligations.JhRoundConstantsAreGenerated := by
  rw [Obligations.JhRoundConstantsAreGenerated, jhRcGen_eq_ofNumbers, jhRcOfNumber_constants, flatten_jhRcRow]

end Sys2Proof.Machine
end

section
/-! Errors (60_exceptions.md R200 to R205): a command that answers an error has raised it in the state it found, for a reason
that reads the phase and the operands alone. -/

namespace Sys2Proof.Machine

/-! ## When a command raises an error -/

/-- An `ABSORB` that the phase admits, with a bad range (R201). -/
theorem exec_absorb_outOfRange {s : State} {off len dlen : Int} (ha : Admits (.absorb off len dlen) s.phase)
    (hr : off < 0 ∨ len < 0 ∨ off + len > dlen) : exec (.absorb off len dlen) s = .next (s.raise .outOfRange) :=
  execAbsorb_outOfRange ((admitsInput_eq_true _).mpr ha) ((rangeOk_eq_false _ _ _).mpr hr)

/-- All a command that answers an error can have done: it raised Misuse in a phase that does not admit it, or it is an
`ABSORB` and raised OutOfRange in a phase that does. -/
theorem exec_error_cases {i : Instr} {s t : State} {e : ErrorKind} {p : List Byte} (h : exec i s = .next t)
    (hresp : t.response = some ⟨.error e, p⟩) : p = [] ∧ t = s.raise e ∧
    ((e = .misuse ∧ ¬ Admits i s.phase) ∨ (e = .outOfRange ∧ ∃ off len dlen, i = .absorb off len dlen ∧
      Admits (.absorb off len dlen) s.phase ∧ (off < 0 ∨ len < 0 ∨ off + len > dlen))) := by
  rcases exec_cases h with ⟨e', rfl, hwhy⟩ | ⟨-, _, _, _, _, _, _, rfl, -⟩
  · obtain ⟨rfl, rfl⟩ : e' = e ∧ [] = p := by simpa using hresp
    refine ⟨rfl, rfl, hwhy.imp_right ?_⟩
    rintro ⟨he, ha, off, len, dlen, rfl, hr⟩
    exact ⟨he, off, len, dlen, rfl, ha, (rangeOk_eq_false _ _ _).mp hr⟩
  · simp at hresp

/-- The outcomes of a command that answers: OK, OutOfRange from `ABSORB`, Misuse from any command but `INIT` (R200). -/
theorem exec_outcome_cases {i : Instr} {s t : State} (h : exec i s = .next t) : ∃ r, t.response = some r ∧
    (r.status = .ok ∨ (r.status = .error .outOfRange ∧ ∃ off len dlen, i = .absorb off len dlen) ∨
      (r.status = .error .misuse ∧ i ≠ .init)) := by
  rcases exec_cases h with ⟨e, rfl, ⟨rfl, ha⟩ | ⟨rfl, -, off, len, dlen, hi, -⟩⟩ | ⟨-, _, _, _, _, _, _, rfl, -⟩
  · refine ⟨_, rfl, .inr (.inr ⟨rfl, ?_⟩)⟩
    rintro rfl
    exact ha trivial
  · exact ⟨_, rfl, .inr (.inl ⟨rfl, off, len, dlen, hi⟩)⟩
  · exact ⟨_, rfl, .inl rfl⟩

/-! ## Misuse, OutOfRange and their order (R201, R202, R204, R205) -/

/-- `RESULT` reads nothing that an error changes. -/
theorem execResult_raise (s : State) (e : ErrorKind) : execResult (s.raise e) = execResult s := rfl

/-- Settles O27: a Misuse is raised in a phase that does not admit the command, and raising it leaves what `RESULT` reads. -/
theorem misuseExactlyWhereNotAdmitted : Obligations.MisuseExactlyWhereNotAdmitted := by
  refine fun i s => ⟨fun ha => exec_notAdmits ha, fun ha t h r hr hstatus => ?never, fun _ t u h hresp hu => ?retrievable⟩
  case never =>
    obtain ⟨status, p⟩ := r
    subst hstatus
    obtain ⟨-, -, ⟨-, hna⟩ | ⟨he, -⟩⟩ := exec_error_cases h hr
    · exact hna ha
    · cases he
  case retrievable =>
    obtain ⟨p, hp⟩ := hresp
    obtain ⟨-, rfl, -⟩ := exec_error_cases h hp
    exact (execResult_raise s .misuse).trans hu

/-- Settles O28: of the reasons for an error only a bad range gives OutOfRange, and the range check comes before any read of
DATA. -/
theorem outOfRangeExactlyWhenTheRangeIsBad : Obligations.OutOfRangeExactlyWhenTheRangeIsBad := by
  refine ⟨fun i s t p h hresp => ?_, fun off len dlen s hs hr m => ?_⟩
  · obtain ⟨-, -, ⟨he, -⟩ | ⟨-, off, len, dlen, hi, -, hr⟩⟩ := exec_error_cases h hresp
    · cases he
    · exact ⟨off, len, dlen, hi, hr⟩
  · exact exec_absorb_outOfRange (s := { s with data := m }) hs hr

/-- Settles O29: the decoder comes before the command, the phase check before the range check. -/
theorem errorsHaveAPriority : Obligations.ErrorsHaveAPriority := by
  refine fun s c rest hin => ⟨fun e hd => step_decode_error hin hd, fun i hd ha => ?misuse,
    fun off len dlen hd ha hr => ?outOfRange⟩
  case misuse => exact (step_command hin hd).trans (exec_notAdmits (s := accept s c rest) ha)
  case outOfRange => exact (step_command hin hd).trans (exec_absorb_outOfRange (s := accept s c rest) ha hr)

/-- Settles O30: an error is raised in the state the command found, and its reason does not speak of DATA, so it is raised
whatever DATA holds. -/
theorem errorsChangeNothing : Obligations.ErrorsChangeNothing := by
  refine ⟨fun i s t e p h hresp => ?_, fun s c rest e hin hd => step_decode_error hin hd⟩
  obtain ⟨hp, rfl, hwhy⟩ := exec_error_cases h hresp
  refine ⟨hp, rfl, fun m => ?_⟩
  rcases hwhy with ⟨rfl, ha⟩ | ⟨rfl, off, len, dlen, rfl, ha, hr⟩
  · exact exec_notAdmits (s := { s with data := m }) ha
  · exact exec_absorb_outOfRange (s := { s with data := m }) ha hr

/-! ## The four outcomes (R200) -/

/-- The codes of R200 are `0x00` to `0x03`. -/
theorem status_code_lt (st : Status) : st.code.toNat < 4 := by
  cases st with
  | ok => decide
  | error e => cases e <;> decide

/-- Settles O31: a command with its data answers one of its outcomes, and only the decoder raises IllegalCommand. -/
theorem everyCommandEndsInOneOfFourOutcomes : Obligations.EveryCommandEndsInOneOfFourOutcomes := by
  refine ⟨rfl, rfl, rfl, rfl, status_code_lt, fun i s hdata => ?command, fun s c rest hin hdata => ?presented⟩
  case command =>
    obtain ⟨t, ht⟩ := exec_answers hdata
    obtain ⟨r, hr, houtcome⟩ := exec_outcome_cases ht
    exact ⟨t, r, ht, hr, houtcome⟩
  case presented =>
    cases hd : decode c.descr with
    | error e => exact ⟨_, _, step_decode_error hin hd, rfl, iff_of_true rfl ⟨e, rfl⟩⟩
    | ok i =>
      obtain ⟨t, ht⟩ := exec_answers (hdata i hd)
      obtain ⟨r, hr, houtcome⟩ := exec_outcome_cases ht
      have hlegal : r.status ≠ .error .illegalCommand := by
        rcases houtcome with h | ⟨h, -⟩ | ⟨h, -⟩ <;> simp [h]
      exact ⟨t, r, (step_command hin hd).trans ht, hr, iff_of_false hlegal (by simp)⟩

end Sys2Proof.Machine
end

section
/-! Descriptors (30_encoding.md R80 to R87): the encoder and the decoder undo each other, the match and mask table covers what
the decoder accepts, operands as integers, and the stored form. -/

namespace Sys2Proof

/-! ## The encoder and the decoder (R80, R84, R85) -/

/-- Settles O2: the fields of an encoded descriptor select its row, and a 32-bit field gives back every operand it admits. -/
theorem decodeOfEncodeIsTheCommand : Obligations.DecodeOfEncodeIsTheCommand := by
  intro i hwf
  cases i with
  | init => decide
  | absorb off len dlen =>
    simp only [Instr.wellFormed, Bool.and_eq_true] at hwf
    obtain ⟨⟨hoff, hlen⟩, hdlen⟩ := hwf
    exact Machine.decode_encode_absorb hoff hlen hdlen
  | final => decide
  | result => decide
  | tfinal => decide

/-- A descriptor with a zero `ZERO` field is the format-N descriptor of its opcode. -/
theorem formatN_eq {d : Descriptor} {op : BitVec 8} (hop : d.op = op) (hz : d.zeroN = 0) : formatN op = d := by
  rw [formatN, ← hz, ← hop]
  exact d.eq_formatN_fields

/-- A descriptor with a zero `ZERO` field is the format-A descriptor of its opcode and its operands. -/
theorem formatA_eq {d : Descriptor} {op : BitVec 8} (hop : d.op = op) (hz : d.zeroA = 0) :
    formatA op d.off.toInt d.len.toInt d.dlen.toInt = d := by
  simp only [formatA, BitVec.ofInt_toInt]
  rw [← hz, ← hop]
  exact d.eq_formatA_fields

/-- Settles O3: the decoder has checked that every bit outside `OP` and the operands is zero. -/
theorem encodeOfDecodeIsTheDescriptor : Obligations.EncodeOfDecodeIsTheDescriptor := by
  intro d i h
  rcases decode_ok_cases h with ⟨rfl, hop, hz⟩ | ⟨rfl, hop, hz⟩ | ⟨rfl, hop, hz⟩ | ⟨rfl, hop, hz⟩ | ⟨rfl, hop, hz⟩
  · exact ⟨rfl, formatN_eq hop hz⟩
  · exact ⟨by simp only [Instr.wellFormed, inSigned32_toInt, Bool.and_self], formatA_eq hop hz⟩
  · exact ⟨rfl, formatN_eq hop hz⟩
  · exact ⟨rfl, formatN_eq hop hz⟩
  · exact ⟨rfl, formatN_eq hop hz⟩

/-- Settles O1: each descriptor decoded. -/
theorem writtenDescriptorsDecode : Obligations.WrittenDescriptorsDecode := by
  unfold Obligations.WrittenDescriptorsDecode
  decide

/-! ## The opcode map in match and mask form (R85) -/

/-- Which rows of the map cover a descriptor, said by the fields each row fixes. -/
theorem map_covers_opcodeRows (d : Descriptor) : opcodeRows.map (fun r => r.covers d) =
    [decide (d.op = 1 ∧ d.zeroN = 0), decide (d.op = 2 ∧ d.zeroA = 0), decide (d.op = 3 ∧ d.zeroN = 0),
      decide (d.op = 4 ∧ d.zeroN = 0), decide (d.op = 5 ∧ d.zeroN = 0)] := by
  have hN (op : BitVec 8) : (d &&& 0xFFFFFFFFFFFFFFFFFFFFFFFFFFFFFFFF == op.setWidth 128) =
      decide (d.op = op ∧ d.zeroN = 0) := by
    rw [beq_eq_decide, decide_eq_decide]
    exact covers_formatN d op
  have hA : (d &&& 0x000000000000000000000000FFFFFFFF == (2 : BitVec 8).setWidth 128) =
      decide (d.op = 2 ∧ d.zeroA = 0) := by
    rw [beq_eq_decide, decide_eq_decide]
    exact covers_formatA d 2
  rw [← hN 1, ← hA, ← hN 3, ← hN 4, ← hN 5]
  rfl

theorem length_filter_covers (d : Descriptor) (rows : List OpcodeRow) :
    (rows.filter fun r => r.covers d).length = (rows.map fun r => r.covers d).count true := by
  rw [List.count, List.countP_map, ← List.countP_eq_length_filter]
  exact List.countP_congr fun r _ => by simp

/-- Settles O4: two rows fix different opcodes, so at most one covers a descriptor, and it covers what its `ZERO` check
accepts. -/
theorem decoderAcceptsWhatOneRowCovers : Obligations.DecoderAcceptsWhatOneRowCovers := by
  intro d
  rw [exists_decode_eq_ok_iff, length_filter_covers, map_covers_opcodeRows]
  rcases opcode_cases d.op with ho | ho | ho | ho | ho | ho | ho
  case inr.inr.inr.inr.inr.inr =>
    have hne (op : BitVec 8) (hop : op.toNat < 6) : d.op ≠ op := by
      rintro rfl
      omega
    simp [hne]
  all_goals simp [ho, List.count_cons]

/-! ## Operands (R84) -/

/-- A 32-bit field of a descriptor as a two's-complement integer. -/
theorem toInt_extractLsb' (d : Descriptor) (start : Nat) : (d.extractLsb' start 32).toInt =
    (d.toNat / 2 ^ start % 2 ^ 32 : Nat) - (if d.getLsbD (start + 31) then 2 ^ 32 else 0) := by
  rw [BitVec.toInt_eq_msb_cond, BitVec.msb_eq_getLsbD_last, BitVec.getLsbD_extractLsb', BitVec.extractLsb'_toNat,
    Nat.shiftRight_eq_div_pow]
  cases d.getLsbD (start + 31) <;> simp

/-- Settles O6: each operand is the signed value of its field, and the range check is made on the integers. -/
theorem absorbOperandsAreSignedIntegers : Obligations.AbsorbOperandsAreSignedIntegers := by
  intro d hop hz
  have hdec : decode d = .ok (.absorb d.off.toInt d.len.toInt d.dlen.toInt) := by
    simpa [decode, hop] using decodeA_zero hz
  have hfits (w : Word32) : -2 ^ 31 ≤ w.toInt ∧ w.toInt ≤ 2 ^ 31 - 1 := by
    simpa [inSigned32] using inSigned32_toInt w
  have htop : d.toNat / 2 ^ 96 % 2 ^ 32 = d.toNat / 2 ^ 96 := Nat.mod_eq_of_lt (by omega)
  refine ⟨_, _, _, hdec, toInt_extractLsb' d 32, toInt_extractLsb' d 64, ?_, hfits _, hfits _, hfits _,
    Machine.rangeOk_eq_true _ _ _⟩
  rw [← htop]
  exact toInt_extractLsb' d 96

/-! ## The stored form (R83) -/

/-- Four stored bytes of a word, whatever is stored after them, load as the word. -/
theorem storedWord_bytes (w : Word32) (rest : List Byte) : storedWord
    (w.extractLsb' 0 8 :: w.extractLsb' 8 8 :: w.extractLsb' 16 8 :: w.extractLsb' 24 8 :: rest) = w := by
  simp only [storedWord, List.getD_cons_zero, List.getD_cons_succ]
  iterate 3 rw [BitVec.extractLsb'_append_extractLsb'_eq_extractLsb' (by decide)]
  exact BitVec.extractLsb'_eq_self

/-- A descriptor is its four words. -/
theorem Descriptor.eq_words (d : Descriptor) : (d.extractLsb' 96 32 ++ d.extractLsb' 64 32 ++ d.extractLsb' 32 32 ++
    d.extractLsb' 0 32 : BitVec (32 + 32 + 32 + 32)) = d := by
  iterate 3 rw [BitVec.extractLsb'_append_extractLsb'_eq_extractLsb' (by decide)]
  exact BitVec.extractLsb'_eq_self

/-- A byte of a word is a byte of the descriptor the word is cut from. -/
theorem extractLsb'_word (d : Descriptor) {i j : Nat} (hj : j ≤ 24) :
    (d.extractLsb' i 32).extractLsb' j 8 = d.extractLsb' (i + j) 8 := by
  apply BitVec.eq_of_getLsbD_eq
  intro k hk
  simp only [BitVec.getLsbD_extractLsb', hk, show j + k < 32 by omega, decide_true, Bool.true_and, Nat.add_assoc]

theorem Descriptor.ofBytes_bytes (d : Descriptor) : Descriptor.ofBytes d.bytes = d := by
  simp only [Descriptor.ofBytes, Descriptor.bytes, Descriptor.words, List.flatMap_cons, List.flatMap_nil,
    List.cons_append, List.nil_append, List.drop_succ_cons, List.drop_zero, storedWord_bytes]
  exact d.eq_words

/-- Byte k of the stored form is bits 8k + 7 to 8k. -/
theorem Descriptor.getElem?_bytes (d : Descriptor) {k : Nat} (hk : k < 16) :
    d.bytes[k]? = some (d.extractLsb' (8 * k) 8) := by
  have hbytes : d.bytes = (List.range 16).map fun k => (d.extractLsb' (32 * (k / 4)) 32).extractLsb' (8 * (k % 4)) 8 := rfl
  rw [hbytes, List.getElem?_map, List.getElem?_range hk, Option.map_some, extractLsb'_word d (by omega)]
  congr 2
  omega

/-- Settles O7: word by word, byte by byte. -/
theorem storedDescriptorLoadsBack : Obligations.StoredDescriptorLoadsBack :=
  fun d => ⟨rfl, d.ofBytes_bytes, fun _ hk => d.getElem?_bytes hk⟩

end Sys2Proof
end

section
/-! What a command and a step do to the message and leave alone (10_state.md R20 to R28, 20_memory.md R50, R64,
70_reset_and_hazards.md R230): the frame of every command, the writers of `COUNT`, the way into `Ready`, and where the model
stops. -/

namespace Sys2Proof.Machine

/-! ## The step (R64, R230) -/

/-- Settles O8: the state of an accepted command. -/
theorem stepRunsThePresentedCommand : Obligations.StepRunsThePresentedCommand :=
  fun _ _ _ _ hin hd => step_command hin hd

/-- Settles O9: an empty port leaves the core idle. -/
theorem stepWithNothingPresentedWaits : Obligations.StepWithNothingPresentedWaits := by
  intro s hin
  simp only [step, hin, State.idle_eq]

/-- Settles O11: the fields of the power-on state. -/
theorem powerOnIsUninitialized : Obligations.PowerOnIsUninitialized :=
  fun _ _ => ⟨rfl, rfl, rfl, rfl, rfl⟩

/-- The free pending bytes after the reset input are cut to fewer than BLOCKSIZE (R27). -/
theorem acceptReset_bufferFits (s : State) (rest : List HostEvent) : (acceptReset s rest).BufferFits := by
  have hlen := List.length_take_le (s.blockSize - 1) (Config.resetBuf s.resets)
  have hpos : 0 < s.blockSize := blockSize_pos s.alg
  rw [State.BufferFits, State.pos, State.acceptReset_buf, State.acceptReset_blockSize]
  omega

/-- The reset input leaves the engine that is not built alone (R23). -/
theorem acceptReset_absentEngine (s : State) (rest : List HostEvent) :
    (s.alg = .jh → (acceptReset s rest).x = s.x) ∧ (s.alg = .cubehash → (acceptReset s rest).h = s.h) :=
  ⟨fun ha => by simp [ha], fun ha => by simp [ha]⟩

/-- Settles O10: the fields of the state after the reset input. -/
theorem resetInputLeavesUninitialized : Obligations.ResetInputLeavesUninitialized := by
  intro s rest hin
  obtain ⟨hx, hh⟩ := acceptReset_absentEngine s rest
  exact ⟨_, step_resetInput hin, rfl, rfl, rfl, rfl, rfl, acceptReset_bufferFits s rest, fun _ => rfl, hx, hh⟩

/-! ## The frame of a command (R20, R23, R50) -/

/-- Settles O20: what `exec_cases` names as changed is the rest. -/
theorem commandsLeaveTheRestAlone : Obligations.CommandsLeaveTheRestAlone := by
  intro i s t h
  rcases exec_cases h with ⟨_, rfl, -⟩ | ⟨-, _, _, _, _, _, _, rfl, hx, hh⟩
  · exact ⟨rfl, rfl, rfl, rfl, fun _ => rfl, fun _ => rfl, fun _ => rfl⟩
  · exact ⟨rfl, rfl, rfl, rfl, fun _ => rfl, hx, hh⟩

/-- Settles O23: neither a command nor the reset input writes a construction value. -/
theorem constructionValuesNeverChange : Obligations.ConstructionValuesNeverChange := by
  intro s t h
  rcases step_cases h with ⟨-, rfl⟩ | ⟨_, -, rfl⟩ | ⟨_, _, _, -, -, rfl⟩ | ⟨c, rest, i, -, -, he⟩
  · exact ⟨rfl, rfl⟩
  · exact ⟨rfl, rfl⟩
  · exact ⟨rfl, rfl⟩
  · obtain ⟨halg, hsize, -⟩ := commandsLeaveTheRestAlone i _ t he
    exact ⟨halg, hsize⟩

/-- Settles O24: neither a command nor the reset input touches the engine that is not built. -/
theorem absentEngineIsNeverTouched : Obligations.AbsentEngineIsNeverTouched := by
  intro s t h
  rcases step_cases h with ⟨-, rfl⟩ | ⟨_, -, rfl⟩ | ⟨_, _, _, -, -, rfl⟩ | ⟨c, rest, i, -, -, he⟩
  · exact ⟨fun _ => rfl, fun _ => rfl⟩
  · exact acceptReset_absentEngine s _
  · exact ⟨fun _ => rfl, fun _ => rfl⟩
  · obtain ⟨-, -, -, -, -, hx, hh⟩ := commandsLeaveTheRestAlone i _ t he
    exact ⟨hx, hh⟩

/-! ## What a command does to the message (R25 to R28) -/

theorem finalise_count (s : State) : (finalise s).count = s.count := by
  obtain ⟨_, _, _, e, -⟩ := finalise_frame s
  rw [e]

theorem execInit_engineIsIv {s t : State} (h : execInit s = .next t) : t.EngineIsIv := by
  obtain ⟨x, hh, rfl, hch, hjh⟩ := execInit_cases h
  rcases alg_eq_or s.alg with ha | ha
  · simp only [State.EngineIsIv, ha, hch ha]
  · simp only [State.EngineIsIv, ha, hjh ha]

/-- The four things a command that answers can do to the message: nothing (an error, or `RESULT`), start an empty one,
take in bytes, or close it. -/
theorem exec_message_cases {i : Instr} {s t : State} (h : exec i s = .next t) :
    (∃ r, t = { s with response := r }) ∨
    (i = .init ∧ t.phase = .ready ∧ t.buf = [] ∧ t.count = 0 ∧ t.EngineIsIv) ∨
    (∃ (off len dlen : Int) (bs : List Byte), i = .absorb off len dlen ∧ bs.length = len.toNat ∧
      s.phase.admitsInput = true ∧ t.phase = .absorbing ∧ t.count = countAfter s.count len.toNat ∧
      t.buf = (pushAll s bs).buf) ∨
    ((i = .final ∨ i = .tfinal) ∧ t.phase = .finalized ∧ t.count = s.count ∧ t.buf = (finalise s).buf) := by
  cases i with
  | init =>
    obtain ⟨_, _, ht, -⟩ := execInit_cases h
    exact .inr (.inl ⟨rfl, execInit_phase h, by rw [ht], by rw [ht], execInit_engineIsIv h⟩)
  | absorb off len dlen =>
    rcases execAbsorb_cases h with ⟨-, rfl⟩ | ⟨-, -, rfl⟩ | ⟨hp, -, bs, -, hlen, rfl⟩
    · exact .inl ⟨_, rfl⟩
    · exact .inl ⟨_, rfl⟩
    · exact .inr (.inr (.inl ⟨off, len, dlen, bs, rfl, hlen, hp, rfl, rfl, rfl⟩))
  | final =>
    rcases execFinal_cases h with ⟨-, rfl⟩ | ⟨-, rfl⟩
    · exact .inl ⟨_, rfl⟩
    · exact .inr (.inr (.inr ⟨.inl rfl, finalise_phase s, finalise_count s, rfl⟩))
  | result =>
    rcases execResult_cases h with ⟨-, rfl⟩ | ⟨-, rfl⟩
    · exact .inl ⟨_, rfl⟩
    · exact .inl ⟨_, rfl⟩
  | tfinal =>
    rcases execTfinal_cases h with ⟨-, rfl⟩ | ⟨-, rfl⟩
    · exact .inl ⟨_, rfl⟩
    · exact .inr (.inr (.inr ⟨.inr rfl, finalise_phase s, finalise_count s, rfl⟩))

/-- Settles O21: the pad string goes through `BUF_PUSH`, which does not count. -/
theorem paddingDoesNotCount : Obligations.PaddingDoesNotCount := by
  refine fun s t => ⟨fun h => ?final, fun h => ?tfinal, fun h => ?result⟩
  case final =>
    rcases execFinal_cases h with ⟨-, rfl⟩ | ⟨-, rfl⟩
    · rfl
    · exact finalise_count s
  case tfinal =>
    rcases execTfinal_cases h with ⟨-, rfl⟩ | ⟨-, rfl⟩
    · rfl
    · exact finalise_count s
  case result => rcases execResult_cases h with ⟨-, rfl⟩ | ⟨-, rfl⟩ <;> rfl

/-- Settles O22: of the four things a command can do to the message, starting it and taking in bytes write `COUNT`. -/
theorem onlyInitAbsorbAndResetWriteCount : Obligations.OnlyInitAbsorbAndResetWriteCount := by
  intro s t h hne
  rcases step_cases h with ⟨-, rfl⟩ | ⟨rest, hin, -⟩ | ⟨_, _, _, -, -, rfl⟩ | ⟨c, rest, i, hin, hd, he⟩
  · exact absurd rfl hne
  · exact .inl ⟨rest, hin⟩
  · exact absurd rfl hne
  · refine .inr ⟨c, rest, hin, ?_⟩
    rcases exec_message_cases he with ⟨_, rfl⟩ | ⟨rfl, -⟩ | ⟨off, len, dlen, _, rfl, -⟩ | ⟨-, -, hcount, -⟩
    · exact absurd rfl hne
    · exact .inl hd
    · exact .inr ⟨off, len, dlen, hd⟩
    · exact absurd hcount hne

/-- Settles O26: of the four things a command can do to the message, only starting it leads to `Ready`. -/
theorem onlyInitLeadsToReady : Obligations.OnlyInitLeadsToReady := by
  intro s t h hs ht
  rcases step_cases h with ⟨-, rfl⟩ | ⟨_, -, rfl⟩ | ⟨_, _, _, -, -, rfl⟩ | ⟨c, rest, i, hin, hd, he⟩
  · exact absurd ht hs
  · exact nomatch ht
  · exact absurd ht hs
  · rcases exec_message_cases he with ⟨_, rfl⟩ | ⟨rfl, -⟩ | ⟨_, _, _, _, -, -, -, hphase, -⟩ | ⟨-, hphase, -⟩
    · exact absurd ht hs
    · exact ⟨c, rest, hin, hd⟩
    · simp [hphase] at ht
    · simp [hphase] at ht

/-! ## ABSORB at its edges (R103, U3, U6) -/

/-- Settles O14: the empty range reads no byte, and nothing is pushed. -/
theorem absorbOfNothingChangesOnlyThePhase : Obligations.AbsorbOfNothingChangesOnlyThePhase := by
  intro off dlen s hphase h0 h1 hbound
  have hr : rangeOk off 0 dlen = true := (rangeOk_eq_true _ _ _).mpr ⟨h0, le_rfl, by omega⟩
  have hcount : countAfter s.count 0 = s.count := by
    rw [countAfter_eq hbound, Nat.add_zero, BitVec.ofNat_toNat, BitVec.setWidth_eq]
  have h : exec (.absorb off 0 dlen) s = .next { s with
      count := countAfter s.count 0, phase := .absorbing, response := some ⟨.ok, []⟩ } :=
    execAbsorb_ok ((admitsInput_eq_true _).mpr hphase) hr rfl
  rw [h, hcount]

/-- Settles O57: no check of `ABSORB` reads `COUNT`. -/
theorem absorbBeyondTheBoundStillRuns : Obligations.AbsorbBeyondTheBoundStillRuns := by
  intro off len dlen s bytes hphase h0 h1 h2 hp _ hlen hread
  have hr : rangeOk off len dlen = true := (rangeOk_eq_true _ _ _).mpr ⟨h0, h1, h2⟩
  have hd : Memory.readRange s.data off.toNat len.toNat = some bytes := (Memory.readRange_eq_some _ _ _ _).mpr ⟨hlen, hread⟩
  exact ⟨_, execAbsorb_range ((admitsInput_eq_true _).mpr hphase) hr hp hd⟩

theorem exec_eq_fault_iff {i : Instr} {s : State} {f : Fault} :
    exec i s = .fault f ↔ f = .dataAbsent ∧ LacksData i s := by
  constructor
  · intro h
    refine ⟨by cases f; rfl, not_not.mp fun hdata => ?_⟩
    obtain ⟨t, ht⟩ := exec_answers hdata
    simp [h] at ht
  · rintro ⟨rfl, off, len, dlen, rfl, ha, h0, h1, h2, habsent⟩
    exact execAbsorb_absent ((admitsInput_eq_true _).mpr ha) ((rangeOk_eq_true _ _ _).mpr ⟨h0, h1, h2⟩)
      ((Memory.readRange_eq_none _ _ _).mpr habsent)

theorem exec_ne_refused (i : Instr) (s : State) (r : Refusal) : exec i s ≠ .refused r := by
  by_cases hdata : LacksData i s
  · simp [exec_eq_fault_iff.mpr ⟨rfl, hdata⟩]
  · obtain ⟨t, ht⟩ := exec_answers hdata
    simp [ht]

theorem step_ne_refused (s : State) (r : Refusal) : step s ≠ .refused r := by
  unfold step
  split
  · exact fun h => nomatch h
  · exact fun h => nomatch h
  · split
    · exact fun h => nomatch h
    · exact exec_ne_refused _ _ r

/-- Settles O15: a command stops exactly where it lacks a byte, and a step refuses nothing that a command does not. -/
theorem onlyAbsentDataStops : Obligations.OnlyAbsentDataStops := by
  refine ⟨fun i s f => exec_eq_fault_iff.trans (and_congr_right fun _ => ?_), exec_ne_refused, step_ne_refused⟩
  constructor
  · rintro ⟨off, len, dlen, rfl, ha, hrest⟩
    exact ⟨off, len, dlen, rfl, ha, hrest⟩
  · rintro ⟨off, len, dlen, rfl, hphase, hrest⟩
    exact ⟨off, len, dlen, rfl, hphase, hrest⟩

end Sys2Proof.Machine
end

section
/-! The invariant of the machine and the relation of `COUNT` and `POS` (10_state.md R27, R28), kept by every step because each
is kept by accepting a command, by an error, by the reset input and by every command. -/

namespace Sys2Proof.Machine

/-! ## At power-on -/

theorem powerOn_inv (a : Alg) (h : HashSize) : (State.powerOn a h).Inv where
  bufferFits := blockSize_pos a
  readyIsFresh := fun hp => nomatch hp
  finalizedIsPadded := fun _ => rfl
  responseSized := fun _ hr => nomatch hr
  dataCanonical := rfl
  inboxCanonical := fun _ he => nomatch he

/-- Settles O33: the buffer and the port are empty and no response stands. -/
theorem invariantHoldsAtPowerOn : Obligations.InvariantHoldsAtPowerOn :=
  ⟨powerOn_inv _ _, powerOn_inv⟩

/-! ## The invariant over a step -/

/-- Accepting a command: its DATA array is one of the port's. -/
theorem State.Inv.accept {s : State} (hs : s.Inv) {c : Command} {rest : List HostEvent}
    (hin : s.inbox = .command c :: rest) : (accept s c rest).Inv where
  bufferFits := hs.bufferFits
  readyIsFresh := hs.readyIsFresh
  finalizedIsPadded := hs.finalizedIsPadded
  responseSized := hs.responseSized
  dataCanonical := hs.inboxCanonical (.command c) (by simp [hin])
  inboxCanonical := fun e he => hs.inboxCanonical e (by simp [hin, show e ∈ rest from he])

/-- Another response of an admitted size. -/
theorem State.Inv.withResponse {s : State} (hs : s.Inv) {response : Option Response}
    (hr : ∀ r, response = some r → r.WellSized s.hashSize) : ({ s with response := response } : State).Inv where
  bufferFits := hs.bufferFits
  readyIsFresh := hs.readyIsFresh
  finalizedIsPadded := hs.finalizedIsPadded
  responseSized := hr
  dataCanonical := hs.dataCanonical
  inboxCanonical := hs.inboxCanonical

/-- The reset input: no response, and a phase of which nothing but `POS` in its range is asked. -/
theorem State.Inv.acceptReset {s : State} (hs : s.Inv) {rest : List HostEvent} (hin : s.inbox = .resetInput :: rest) :
    (acceptReset s rest).Inv where
  bufferFits := acceptReset_bufferFits s rest
  readyIsFresh := fun hp => nomatch hp
  finalizedIsPadded := fun hp => nomatch hp
  responseSized := fun _ hr => nomatch hr
  dataCanonical := hs.dataCanonical
  inboxCanonical := fun e he => hs.inboxCanonical e (by simp [hin, show e ∈ rest from he])

theorem length_pushAll_buf_lt {s : State} (bs : List Byte) (hp : s.pos < s.blockSize) :
    (pushAll s bs).buf.length < s.blockSize := by
  rw [pushAll_buf bs hp, length_lastBytes]
  exact Nat.mod_lt _ (blockSize_pos s.alg)

theorem exec_responseSized {i : Instr} {s t : State} (h : exec i s = .next t) :
    ∀ r, t.response = some r → r.WellSized t.hashSize := by
  intro r hr
  rcases exec_response_cases h with ⟨e, he⟩ | ⟨-, -, hd⟩ | ⟨-, hok⟩
  · obtain rfl := Option.some.inj (hr.symm.trans he)
    rfl
  · obtain rfl := Option.some.inj (hr.symm.trans hd)
    exact .inr (length_digest t)
  · obtain rfl := Option.some.inj (hr.symm.trans hok)
    exact .inl rfl

/-- A command never leaves DATA or the port other than it found them. -/
theorem exec_data_inbox {i : Instr} {s t : State} (h : exec i s = .next t) : t.data = s.data ∧ t.inbox = s.inbox := by
  rcases exec_cases h with ⟨_, rfl, -⟩ | ⟨-, _, _, _, _, _, _, rfl, -⟩ <;> exact ⟨rfl, rfl⟩

theorem exec_blockSize {i : Instr} {s t : State} (h : exec i s = .next t) : t.blockSize = s.blockSize := by
  obtain ⟨halg, -⟩ := commandsLeaveTheRestAlone i s t h
  rw [State.blockSize, halg, State.blockSize]

/-- The part of the invariant that speaks of the message. -/
theorem exec_keeps_message {i : Instr} {s t : State} (hs : s.Inv) (h : exec i s = .next t) :
    t.BufferFits ∧ t.ReadyIsFresh ∧ t.FinalizedIsPadded := by
  have hp : s.pos < s.blockSize := hs.bufferFits
  have hpos : 0 < s.blockSize := blockSize_pos s.alg
  have hsize := exec_blockSize h
  rcases exec_message_cases h with ⟨_, rfl⟩ | ⟨-, hphase, hbuf, hcount, hiv⟩ |
    ⟨_, _, _, bs, -, -, -, hphase, -, hbuf⟩ | ⟨-, hphase, -, hbuf⟩
  · exact ⟨hs.bufferFits, hs.readyIsFresh, hs.finalizedIsPadded⟩
  · refine ⟨?_, fun _ => ⟨hbuf, hcount, hiv⟩, fun _ => hbuf⟩
    rwa [State.BufferFits, State.pos, hsize, hbuf]
  · refine ⟨?_, fun hready => by simp [hphase] at hready, fun hfin => by simp [hphase] at hfin⟩
    rw [State.BufferFits, State.pos, hsize, hbuf]
    exact length_pushAll_buf_lt bs hp
  · rw [finalise_buf hp] at hbuf
    refine ⟨?_, fun hready => by simp [hphase] at hready, fun _ => hbuf⟩
    rwa [State.BufferFits, State.pos, hsize, hbuf]

theorem exec_keeps_inv {i : Instr} {s t : State} (hs : s.Inv) (h : exec i s = .next t) : t.Inv := by
  obtain ⟨hfits, hfresh, hpadded⟩ := exec_keeps_message hs h
  obtain ⟨hdata, hinbox⟩ := exec_data_inbox h
  exact ⟨hfits, hfresh, hpadded, exec_responseSized h, hdata ▸ hs.dataCanonical, hinbox ▸ hs.inboxCanonical⟩

/-- Settles O34: accepting, an error, the reset input and every command keep the invariant. -/
theorem everyStepKeepsTheInvariant : Obligations.EveryStepKeepsTheInvariant := by
  intro s t hs h
  rcases step_cases h with ⟨-, rfl⟩ | ⟨_, hin, rfl⟩ | ⟨_, _, _, hin, -, rfl⟩ | ⟨_, _, _, hin, -, he⟩
  · exact hs
  · exact hs.acceptReset hin
  · refine (hs.accept hin).withResponse fun r hr => ?_
    obtain rfl := Option.some.inj hr
    rfl
  · exact exec_keeps_inv (hs.accept hin) he

/-! ## COUNT and POS over a step -/

/-- Taking in bytes moves `COUNT` and `POS` by the same number, `POS` modulo BLOCKSIZE. -/
theorem countAfter_mod_eq_length_pushAll {s : State} {bs : List Byte} (hp : s.pos < s.blockSize)
    (hmatch : s.count.toNat % s.blockSize = s.pos) (hbound : s.count.toNat + bs.length < messageBound) :
    (countAfter s.count bs.length).toNat % s.blockSize = (pushAll s bs).buf.length := by
  rw [countAfter_below hbound, pushAll_buf bs hp, length_lastBytes, List.length_append, Nat.add_mod, hmatch, State.pos,
    Nat.add_mod_mod]

theorem exec_keeps_countMatchesPos {i : Instr} {s t : State} (hp : s.pos < s.blockSize) (hs : s.CountMatchesPos)
    (hbound : ∀ off len dlen, i = .absorb off len dlen → s.count.toNat + len.toNat < messageBound)
    (h : exec i s = .next t) : t.CountMatchesPos := by
  intro ht
  rw [exec_blockSize h, State.pos]
  rcases exec_message_cases h with ⟨_, rfl⟩ | ⟨-, -, hbuf, hcount, -⟩ |
    ⟨off, len, dlen, bs, hi, hlen, hadmits, -, hcount, hbuf⟩ | ⟨-, hphase, -⟩
  · exact hs ht
  · rw [hbuf, hcount]
    exact Nat.zero_mod _
  · rw [hbuf, hcount, ← hlen]
    exact countAfter_mod_eq_length_pushAll hp (hs hadmits) (hlen ▸ hbound off len dlen hi)
  · simp [hphase] at ht

/-- Settles O35: in the admitted domain `ABSORB` moves `COUNT` and `POS` alike, `INIT` sets both to 0, and what else writes
them leaves the phases of which the relation speaks. -/
theorem everyStepKeepsCountMatchingPos : Obligations.EveryStepKeepsCountMatchingPos := by
  intro s t hinv hs hbound h
  rcases step_cases h with ⟨-, rfl⟩ | ⟨_, -, rfl⟩ | ⟨_, _, _, -, -, rfl⟩ | ⟨c, rest, i, hin, hd, he⟩
  · exact hs
  · exact fun hadmits => nomatch hadmits
  · exact hs
  · refine exec_keeps_countMatchesPos (s := accept s c rest) hinv.bufferFits hs (fun off len dlen hi => ?_) he
    exact hbound c rest off len dlen hin (hi ▸ hd)

end Sys2Proof.Machine
end

section
/-! Two cores a host cannot tell apart (70_reset_and_hazards.md R230): every step of the one is answered by a step of the
other, so what reset leaves unspecified is never seen. -/

namespace Sys2Proof.Machine

/-! ## Before INIT -/

/-- In Uninitialized nothing is asked of the message. -/
theorem sameToTheHost_of_uninitialized {s t : State} (halg : s.alg = t.alg) (hsize : s.hashSize = t.hashSize)
    (hs : s.phase = .uninitialized) (ht : t.phase = .uninitialized) (hinbox : s.inbox = t.inbox)
    (hresp : s.response = t.response) : SameToTheHost s t :=
  ⟨halg, hsize, hs.trans ht.symm, hinbox, hresp, fun hne => absurd hs hne⟩

/-- `INIT` writes all of the message, so afterwards the two cores hold the same. -/
theorem SameToTheHost.execInit {s t s' : State} (H : SameToTheHost s t) (h : execInit s = .next s') :
    ∃ t', execInit t = .next t' ∧ SameToTheHost s' t' := by
  obtain ⟨x, hh, rfl, hch, hjh⟩ := execInit_cases h
  obtain ⟨t', ht⟩ : ∃ t', Machine.execInit t = .next t' := ⟨_, rfl⟩
  obtain ⟨y, hh', rfl, hch', hjh'⟩ := execInit_cases ht
  refine ⟨_, ht, H.alg, H.hashSize, rfl, H.inbox, rfl, fun _ => ⟨rfl, rfl, fun ha => ?_, fun ha => ?_⟩⟩
  · exact ((hch ha).1.trans (by rw [H.hashSize])).trans (hch' (H.alg ▸ ha)).1.symm
  · exact ((hjh ha).2.trans (by rw [H.hashSize])).trans (hjh' (H.alg ▸ ha)).2.symm

/-! ## After INIT -/

/-- Once `INIT` has been accepted, and with one DATA array in force, two such cores differ in nothing a command reads. -/
theorem SameToTheHost.eq_withHidden {s t : State} (H : SameToTheHost s t) (hp : s.phase ≠ .uninitialized)
    (hdata : s.data = t.data) : t = s.withHidden t.x t.h t.resets := by
  obtain ⟨hbuf, hcount, hx, hh⟩ := H.message hp
  obtain ⟨halg, hsize, hphase, hinbox, hresp, -⟩ := H
  obtain ⟨alg, hs, x, h, buf, count, phase, data, resp, inbox, resets⟩ := s
  obtain ⟨alg', hs', x', h', buf', count', phase', data', resp', inbox', resets'⟩ := t
  dsimp only at *
  subst halg hsize hphase hinbox hresp hbuf hcount hdata
  rcases alg_eq_or alg with rfl | rfl
  · obtain rfl := hx rfl
    rfl
  · obtain rfl := hh rfl
    rfl

/-- What is hidden from the commands is hidden from the host. -/
theorem sameToTheHost_withHidden (s : State) (x : ChState) (h : JhState) (r : Nat) : SameToTheHost s (s.withHidden x h r) where
  alg := rfl
  hashSize := rfl
  phase := rfl
  inbox := rfl
  response := rfl
  message := fun _ => ⟨rfl, rfl, fun ha => by simp [State.withHidden, ha], fun ha => by simp [State.withHidden, ha]⟩

/-! ## Every step -/

theorem SameToTheHost.raise {s t : State} (H : SameToTheHost s t) (e : ErrorKind) : SameToTheHost (s.raise e) (t.raise e) :=
  ⟨H.alg, H.hashSize, H.phase, H.inbox, rfl, H.message⟩

theorem SameToTheHost.accept {s t : State} (H : SameToTheHost s t) (c : Command) (rest : List HostEvent) :
    SameToTheHost (accept s c rest) (accept t c rest) :=
  ⟨H.alg, H.hashSize, H.phase, rfl, H.response, H.message⟩

theorem SameToTheHost.acceptReset {s t : State} (H : SameToTheHost s t) (rest : List HostEvent) :
    SameToTheHost (acceptReset s rest) (acceptReset t rest) :=
  sameToTheHost_of_uninitialized H.alg H.hashSize rfl rfl rfl rfl

theorem SameToTheHost.exec {s t s' : State} {i : Instr} (H : SameToTheHost s t) (hdata : s.data = t.data)
    (h : exec i s = .next s') : ∃ t', exec i t = .next t' ∧ SameToTheHost s' t' := by
  by_cases hp : s.phase = .uninitialized
  · by_cases hi : i = .init
    · subst hi
      exact H.execInit h
    · have hna : ¬ Admits i s.phase := by cases i <;> simp_all [Admits]
      have hraise : s.raise .misuse = s' := by simpa [exec_notAdmits hna] using h
      exact ⟨_, exec_notAdmits (H.phase ▸ hna), hraise ▸ H.raise .misuse⟩
  · have ht := H.eq_withHidden hp hdata
    exact ⟨_, (congrArg (Machine.exec i) ht).trans (exec_withHidden i _ _ _ h), sameToTheHost_withHidden s' _ _ _⟩

theorem SameToTheHost.step {s t s' : State} (H : SameToTheHost s t) (h : step s = .next s') :
    ∃ t', step t = .next t' ∧ SameToTheHost s' t' := by
  rcases step_cases h with ⟨hin, rfl⟩ | ⟨rest, hin, rfl⟩ | ⟨c, rest, e, hin, hd, rfl⟩ | ⟨c, rest, i, hin, hd, he⟩
  · exact ⟨t, stepWithNothingPresentedWaits t (H.inbox ▸ hin), H⟩
  · exact ⟨_, step_resetInput (H.inbox ▸ hin), H.acceptReset rest⟩
  · exact ⟨_, step_decode_error (H.inbox ▸ hin) hd, (H.accept c rest).raise .illegalCommand⟩
  · obtain ⟨t', ht, H'⟩ := (H.accept c rest).exec rfl he
    exact ⟨t', (step_command (H.inbox ▸ hin) hd).trans ht, H'⟩

theorem SameToTheHost.run {s t s' : State} (H : SameToTheHost s t) {k : Nat}
    (h : Host.Core.run Sys2Proof.core k s = .next s') :
    ∃ t' : State, Host.Core.run Sys2Proof.core k t = .next t' ∧ SameToTheHost s' t' := by
  induction k generalizing s t with
  | zero =>
    rw [run_zero] at h
    injection h with h
    exact ⟨t, run_zero t, h ▸ H⟩
  | succ k ih =>
    obtain ⟨u, hs, hu⟩ := run_succ_cases h
    obtain ⟨v, ht, Huv⟩ := H.step hs
    obtain ⟨t', htk, H'⟩ := ih Huv hu
    exact ⟨t', (run_succ k ht).trans htk, H'⟩

/-- Settles O38: in Uninitialized two such cores are the same to the host, and every step keeps them so. -/
theorem unspecifiedResetValuesAreNeverSeen : Obligations.UnspecifiedResetValuesAreNeverSeen := by
  intro s t hs ht halg hsize hinbox hresp k s' h
  obtain ⟨t', ht', H⟩ := (sameToTheHost_of_uninitialized halg hsize hs ht hinbox hresp).run h
  exact ⟨t', ht', H.response.symm, H.phase.symm⟩

end Sys2Proof.Machine
end

section
/-! The rounds of the engines as maps (41_cubehash.md R131, 42_jh.md R162, R163): the CubeHash round is a bijection, and the JH
layers act on each lane as the S-boxes and the MDS map. -/

namespace Sys2Proof.Machine

/-! ## The CubeHash round (R131) -/

theorem chAddLowIntoHigh_bijective : Function.Bijective chAddLowIntoHigh :=
  Function.bijective_iff_has_inverse.mpr ⟨chSubLowFromHigh, chSub_chAdd, chAdd_chSub⟩

theorem chRotateLow_bijective {n : Nat} (h0 : 0 < n) (h : n < 32) : Function.Bijective (chRotateLow n) := by
  refine Function.bijective_iff_has_inverse.mpr ⟨chRotateLow (32 - n), fun x => chRotateLow_undone x h0 h, fun x => ?_⟩
  have hback := chRotateLow_undone x (n := 32 - n) (by omega) (by omega)
  rwa [Nat.sub_sub_self h.le] at hback

/-- Half a round: five steps, each of which can be undone. -/
theorem chHalfRound_bijective {n : Nat} (h0 : 0 < n) (h : n < 32) (p q : Fin 16) : Function.Bijective fun x =>
    chSwapHigh q (chXorHighIntoLow (chSwapLow p (chRotateLow n (chAddLowIntoHigh x)))) :=
  have hSwapHigh : Function.Involutive (chSwapHigh q) := chSwapHigh_undone q
  have hXor : Function.Involutive chXorHighIntoLow := chXor_undone
  have hSwapLow : Function.Involutive (chSwapLow p) := chSwapLow_undone p
  hSwapHigh.bijective.comp (hXor.bijective.comp (hSwapLow.bijective.comp
    ((chRotateLow_bijective h0 h).comp chAddLowIntoHigh_bijective)))

/-- Settles O40: both half rounds are bijections. -/
theorem cubeHashRoundIsABijection : Obligations.CubeHashRoundIsABijection :=
  (chHalfRound_bijective (n := 11) (by decide) (by decide) 4 1).comp
    (chHalfRound_bijective (n := 7) (by decide) (by decide) 8 2)

/-! ## The JH layers, lane by lane (R162, R163) -/

/-- Four bits of a lane as its value, the first the most significant. -/
def laneNat : Bool × Bool × Bool × Bool → Nat
  | (b0, b1, b2, b3) => 8 * b0.toNat + 4 * b1.toNat + 2 * b2.toNat + b3.toNat

theorem laneNat_leftLane (m : JhPass) (k : Nat) : laneNat (m.leftLane k) = laneValue m.m0 m.m1 m.m2 m.m3 k := rfl

theorem laneNat_rightLane (m : JhPass) (k : Nat) : laneNat (m.rightLane k) = laneValue m.m4 m.m5 m.m6 m.m7 k := rfl

/-- The eleven lines of `JH_SS` compute the two tables of R162. -/
theorem laneNat_laneSS (c : Bool) (l : Bool × Bool × Bool × Bool) :
    laneNat (laneSS c l) = (if c then jhS1 else jhS0).getD (laneNat l) 0 := by
  revert c l
  decide

/-- Settles O45: on each lane `JH_SS` is `laneSS`, which computes the S-box of the lane's constant bit. -/
theorem nonlinearLayerIsTwoSBoxes : Obligations.NonlinearLayerIsTwoSBoxes := by
  intro m cc0 cc1 k hk
  simp only [← laneNat_leftLane, ← laneNat_rightLane, leftLane_jhSS m cc0 cc1 hk, rightLane_jhSS m cc0 cc1 hk,
    laneNat_laneSS, and_self]

/-- The eight lines of `JH_L` on one lane of each group. -/
def laneL : Bool × Bool × Bool × Bool → Bool × Bool × Bool × Bool →
    (Bool × Bool × Bool × Bool) × (Bool × Bool × Bool × Bool)
  | (b0, b1, b2, b3), (b4, b5, b6, b7) =>
    let b4 := b4 ^^ b1
    let b5 := b5 ^^ b2
    let b6 := b6 ^^ b0 ^^ b3
    let b7 := b7 ^^ b0
    let b0 := b0 ^^ b5
    let b1 := b1 ^^ b6
    let b2 := b2 ^^ b4 ^^ b7
    let b3 := b3 ^^ b4
    ((b0, b1, b2, b3), (b4, b5, b6, b7))

theorem lanes_jhL (m : JhPass) (k : Nat) :
    ((jhL m).leftLane k, (jhL m).rightLane k) = laneL (m.leftLane k) (m.rightLane k) := by
  simp only [jhL, JhPass.leftLane, JhPass.rightLane, laneL, BitVec.getLsbD_xor]

/-- The eight lines of `JH_L` compute the map of R163. -/
theorem laneNat_laneL (a b : Bool × Bool × Bool × Bool) :
    (laneNat (laneL a b).1, laneNat (laneL a b).2) = jhMds (laneNat a) (laneNat b) := by
  revert a b
  decide

/-- Settles O46: on each lane `JH_L` is `laneL`, which computes the MDS map. -/
theorem linearLayerIsTheMdsMap : Obligations.LinearLayerIsTheMdsMap := by
  intro m k _
  simp only [← laneNat_leftLane, ← laneNat_rightLane]
  rw [← laneNat_laneL, ← lanes_jhL]

end Sys2Proof.Machine
end
